-- ==== Sys2Proof/Word.lean ====
section
/-! DEFINITION. The words of the block: a byte of a buffer, a 32-bit register or command word, and a 64-bit register
(spec 00_scope.md R6, R7: W = 64, a byte has 8 bits; 10_state.md R22). -/

namespace Sys2Proof

/-- One byte of IN or OUT (R7, R9). -/
abbrev Byte := BitVec 8

/-- A 32-bit register or a command word (R22, R70). -/
abbrev Half := BitVec 32

/-- A 64-bit register value: the spec's W = 64 (R6). -/
abbrev Word := BitVec 64

end Sys2Proof
end

