-- ==== Sys2Proof/Syntax.lean ====
section
/-! DEFINITION. The 24 commands of the opcode table (spec 30_encoding.md R73). Every operand but the width of
CFG.FIXW is implicit (R72), so the other constructors take no argument. -/

namespace Sys2Proof

/-- One constructor per row of the opcode table, in the order of R73. -/
inductive Instr where
  /-- CFG.STD (45_config.md R191) -/
  | cfgStd
  /-- CFG.BE (R192) -/
  | cfgBe
  /-- CFG.FIXW n (R193): `n` is the width operand, the number that IMM8 holds (30_encoding.md R71) -/
  | cfgFixw (n : Nat)
  /-- CFG.VAR (R194) -/
  | cfgVar
  /-- CFG.LIMIT (R195) -/
  | cfgLimit
  /-- ZZ.ENC32 (43_varint.md R146) -/
  | zzEnc32
  /-- ZZ.ENC64 (R147) -/
  | zzEnc64
  /-- LEB.ENC (R148) -/
  | lebEnc
  /-- ZZ.DEC32 (R149) -/
  | zzDec32
  /-- ZZ.DEC64 (R150) -/
  | zzDec64
  /-- LEB.DEC (R151) -/
  | lebDec
  /-- LP.ENC (41_length_prefix.md R106) -/
  | lpEnc
  /-- BLOB.SER (R108) -/
  | blobSer
  /-- LP.DEC (R107) -/
  | lpDec
  /-- BLOB.DES (R109) -/
  | blobDes
  /-- FX.ENC (42_byte_order.md R123) -/
  | fxEnc
  /-- FX.DECS (R124) -/
  | fxDecs
  /-- FX.DECU (R125) -/
  | fxDecu
  /-- SER.I32 (44_integer.md R174) -/
  | serI32
  /-- SER.U32 (R175) -/
  | serU32
  /-- SER.I64 (R176) -/
  | serI64
  /-- DES.I32 (R177) -/
  | desI32
  /-- DES.U32 (R178) -/
  | desU32
  /-- DES.I64 (R179) -/
  | desI64
  deriving DecidableEq, Repr

end Sys2Proof
end

