-- ==== Sys2Proof/WellFormed.lean ====
section
/-! DEFINITION. Which instruction terms have a command word: the width operand of CFG.FIXW is an unsigned value of
0 to 255 (spec 30_encoding.md R71). Whether it is a legal WIDTH is not checked here: the command checks it (R193). -/

namespace Sys2Proof

/-- The instruction has a command word. One check: IMM8 has eight bits (30_encoding.md R71). -/
def Instr.wellFormed (i : Instr) : Bool :=
  match i with
  | .cfgFixw n => decide (n < 256)
  | .cfgStd | .cfgBe | .cfgVar | .cfgLimit => true
  | .zzEnc32 | .zzEnc64 | .lebEnc | .zzDec32 | .zzDec64 | .lebDec => true
  | .lpEnc | .blobSer | .lpDec | .blobDes => true
  | .fxEnc | .fxDecs | .fxDecu => true
  | .serI32 | .serU32 | .serI64 | .desI32 | .desU32 | .desI64 => true

end Sys2Proof
end

