-- ==== Sys2Proof/Decode.lean ====
section
/-! DEFINITION. The command word of spec 30_encoding.md: its fields (R70), the opcode map (R73), the decoder, total over
all 2^32 words (R78), and the encoder (R79). -/

namespace Sys2Proof

/-- Why a word is illegal (30_encoding.md R74). All three raise the same kind, IllegalCommand, so the reason cannot be
observed (R78). -/
inductive DecodeError where
  /-- R74 (a): OP is not in the table of R73 -/
  | unassignedOpcode
  /-- R74 (b): RSV is not 0 -/
  | reservedBitsSet
  /-- R74 (c): IMM8 is not 0 outside CFG.FIXW -/
  | immediateSet
  deriving DecidableEq, Repr

/-- `OP = w[7:0]` (R70). -/
def opField (w : Half) : BitVec 8 := w.extractLsb' 0 8

/-- `IMM8 = w[15:8]` (R70). -/
def immField (w : Half) : BitVec 8 := w.extractLsb' 8 8

/-- `RSV = w[31:16]` (R70). -/
def rsvField (w : Half) : BitVec 16 := w.extractLsb' 16 16

/-- The opcode map of R73: the command that OP selects, with the immediate of CFG.FIXW zero-extended (R71). -/
def instrOfOpcode (op imm : BitVec 8) : Option Instr :=
  match op with
  | 0x10#8 => some .cfgStd
  | 0x11#8 => some .cfgBe
  | 0x12#8 => some (.cfgFixw imm.toNat)
  | 0x13#8 => some .cfgVar
  | 0x14#8 => some .cfgLimit
  | 0x20#8 => some .zzEnc32
  | 0x21#8 => some .zzEnc64
  | 0x22#8 => some .lebEnc
  | 0x30#8 => some .zzDec32
  | 0x31#8 => some .zzDec64
  | 0x32#8 => some .lebDec
  | 0x40#8 => some .lpEnc
  | 0x41#8 => some .blobSer
  | 0x50#8 => some .lpDec
  | 0x51#8 => some .blobDes
  | 0x60#8 => some .fxEnc
  | 0x61#8 => some .fxDecs
  | 0x62#8 => some .fxDecu
  | 0x70#8 => some .serI32
  | 0x71#8 => some .serU32
  | 0x72#8 => some .serI64
  | 0x78#8 => some .desI32
  | 0x79#8 => some .desU32
  | 0x7A#8 => some .desI64
  | _ => none

/-- The command decoder of R78, with its three checks in R78's order. -/
def decode (w : Half) : Except DecodeError Instr :=
  match instrOfOpcode (opField w) (immField w) with
  | none => .error .unassignedOpcode
  | some i =>
    if rsvField w ≠ 0 then .error .reservedBitsSet
    else if opField w ≠ 0x12#8 ∧ immField w ≠ 0 then .error .immediateSet
    else .ok i

/-- The opcode of each command (R73). -/
def opcodeOf (i : Instr) : BitVec 8 :=
  match i with
  | .cfgStd => 0x10#8
  | .cfgBe => 0x11#8
  | .cfgFixw _ => 0x12#8
  | .cfgVar => 0x13#8
  | .cfgLimit => 0x14#8
  | .zzEnc32 => 0x20#8
  | .zzEnc64 => 0x21#8
  | .lebEnc => 0x22#8
  | .zzDec32 => 0x30#8
  | .zzDec64 => 0x31#8
  | .lebDec => 0x32#8
  | .lpEnc => 0x40#8
  | .blobSer => 0x41#8
  | .lpDec => 0x50#8
  | .blobDes => 0x51#8
  | .fxEnc => 0x60#8
  | .fxDecs => 0x61#8
  | .fxDecu => 0x62#8
  | .serI32 => 0x70#8
  | .serU32 => 0x71#8
  | .serI64 => 0x72#8
  | .desI32 => 0x78#8
  | .desU32 => 0x79#8
  | .desI64 => 0x7A#8

/-- The immediate of each command: the width of CFG.FIXW, 0 elsewhere (R70, R71). DESIGN CHOICE, unsafe (assumption
log 31): a width from 256 up, which IMM8 cannot hold and the spec gives no word, is taken modulo 256. -/
def immediateOf (i : Instr) : BitVec 8 :=
  match i with
  | .cfgFixw n => BitVec.ofNat 8 n
  | .cfgStd | .cfgBe | .cfgVar | .cfgLimit => 0
  | .zzEnc32 | .zzEnc64 | .lebEnc | .zzDec32 | .zzDec64 | .lebDec => 0
  | .lpEnc | .blobSer | .lpDec | .blobDes => 0
  | .fxEnc | .fxDecs | .fxDecu => 0
  | .serI32 | .serU32 | .serI64 | .desI32 | .desU32 | .desI64 => 0

/-- The assembler's word, `OP | (imm << 8)` (R79), RSV being 0 (R70), for every well-formed instruction. For CFG.FIXW n
with n from 256 up, which has no word in the spec, it is the word of n modulo 256 (DESIGN CHOICE, assumption log 31). -/
def encode (i : Instr) : Half := 0#16 ++ (immediateOf i ++ opcodeOf i)

/-- The host's reading of a table row's word: bit 0 of `w` is bit 0 of the 32-bit command word (R70), and the bits
above `nbits` are 0. -/
def decodeTableWord (nbits w : Nat) : Option Instr :=
  match decode (BitVec.ofNat 32 (w % 2 ^ nbits)) with
  | .ok i => some i
  | .error _ => none

end Sys2Proof
end

