-- ==== Sys2Proof/Config.lean ====
section
/-! DEFINITION. What an implementation fixes (spec 00_scope.md R6), the Configuration view of CTRL and LIMIT (R11),
and the free values: the unspecified contents of the buffers after reset (70_reset_and_hazards.md R232). -/

namespace Sys2Proof

/-- `cfg.byteOrder` (R11; 10_state.md R25). -/
inductive ByteOrder where
  | littleEndian
  | bigEndian
  deriving DecidableEq, Repr

/-- `cfg.mode` (R11): one mode for length prefixes and integer payloads (90_conflicts.md C1). -/
inductive Mode where
  | fixed
  | variableLen
  deriving DecidableEq, Repr

/-- The Configuration value the family rules read (R11). -/
structure Cfg where
  byteOrder : ByteOrder
  mode : Mode
  /-- `width(CTRL.IW)` in bytes: 1, 2, 4 or 8 -/
  intWidth : Nat
  sizeLimit : Nat
  deriving DecidableEq, Repr

/-- `P_LEB_NONCANON` (R6): what the LEB128 decoder does with redundant high zero groups. -/
inductive NoncanonPolicy where
  | accept
  | reject
  deriving DecidableEq, Repr

/-- `P_INT_EXCESS` (R6): what an integer decode does with payload bytes it does not need. -/
inductive ExcessPolicy where
  | ignore
  | reject
  deriving DecidableEq, Repr

/-- `P_NARROW` (R6): what narrowing a 64-bit word to a 32-bit target does with a value that does not fit. -/
inductive NarrowPolicy where
  | wrap
  | reject
  deriving DecidableEq, Repr

/-- The implementation parameters of R6. A state carries them (assumption log 5) and no step changes them. -/
structure Params where
  /-- `IN_CAP` -/
  inCap : Nat
  /-- `OUT_CAP` -/
  outCap : Nat
  /-- `HOST_SIZE_MAX` -/
  hostSizeMax : Nat
  /-- `P_LEB_NONCANON` -/
  lebNoncanon : NoncanonPolicy
  /-- `P_INT_EXCESS` -/
  intExcess : ExcessPolicy
  /-- `P_NARROW` -/
  narrow : NarrowPolicy
  deriving DecidableEq, Repr

/-- The constraints R6 puts on the capacities: `IN_CAP >= 27` and `OUT_CAP >= IN_CAP + 9`. -/
abbrev Params.Legal (p : Params) : Prop := 27 ≤ p.inCap ∧ p.inCap + 9 ≤ p.outCap

namespace Config

/-- The parameters `State.reset` carries. The policies are the spec's values (R6, D15, D16, D18) and HOST_SIZE_MAX is
the spec's reference value (R6, D21). The capacities are a DESIGN CHOICE, unsafe for a statement about runs from
`State.reset` only (assumption log 6): IN holds any record whose payload is within the reset LIMIT, with the longest
prefix of 17 bytes. -/
def referenceParams : Params :=
  { inCap := 65553, outCap := 65562, hostSizeMax := 2 ^ 63 - 1,
    lebNoncanon := .accept, intExcess := .ignore, narrow := .wrap }

/-- FREE VALUE: the byte IN holds at an address the host has not written since the `epoch`-th reset (R232; 93 U1).
Nothing constrains it (assumption log 8, safe). -/
opaque inResetByte (epoch addr : Nat) : Byte

/-- FREE VALUE: the byte OUT holds at an address no command has written since the `epoch`-th reset (R232, R237; 93 U2).
Nothing constrains it (assumption log 9, safe). -/
opaque outResetByte (epoch addr : Nat) : Byte

end Config

end Sys2Proof
end

