-- ==== Sys2Proof/Machine/State.lean ====
section
/-! DEFINITION. The state of the block (spec 10_state.md R20), the host's accesses, the error kinds, the refusals, and
the state after reset (70_reset_and_hazards.md R231, R232). -/

namespace Sys2Proof.Machine

/-- The nine error kinds of 60_exceptions.md R200. -/
inductive ErrKind where
  | sizeLimitExceeded
  | insufficientData
  | lengthExceedsLimit
  | lengthOverflow
  | trailingBytes
  | invalidMarker
  | outOfRange
  | invalidConfiguration
  | illegalCommand
  deriving DecidableEq, Repr

/-- The registers of 10_state.md R22. -/
inductive Reg where
  | cmd
  | status
  | ctrl
  | limit
  | val
  | res
  | cnt
  | inLen
  | outLen
  deriving DecidableEq, Repr

/-- One host interaction (70_reset_and_hazards.md R238), one step of the machine (00_scope.md R13). -/
inductive HostAccess where
  /-- a read of `bits` bits at a byte offset of REG (R34) -/
  | readReg (offset bits : Nat)
  /-- a write of `bits` bits at a byte offset of REG; of `data` the low `bits` bits count (R34) -/
  | writeReg (offset bits : Nat) (data : Word)
  /-- a read of IN[addr] (20_memory.md R51) -/
  | readIn (addr : Nat)
  /-- a write of IN[addr] (R51) -/
  | writeIn (addr : Nat) (data : Byte)
  /-- a read of OUT[addr] (R52) -/
  | readOut (addr : Nat)
  /-- a write of OUT[addr], which has no effect (R52) -/
  | writeOut (addr : Nat) (data : Byte)
  /-- the reset event (R230) -/
  | reset
  deriving DecidableEq, Repr

/-- A buffer's bytes as (index, byte) pairs, indices strictly rising. An index that is not listed holds no value the
model knows: it has not been written since reset (20_memory.md R51, R52; assumption log 7, 9). -/
abbrev Memory := List Host.Cell

/-- The block has no fault, stuck state or hang of its own: every command terminates (60_exceptions.md R216). So there
is no constructor (assumption log 12; safe). -/
inductive Fault where
  deriving DecidableEq, Repr

/-- The host actions the spec gives no meaning (60_exceptions.md R216: "The model has no step for it"), and the
rejection by name of an instruction not modelled. -/
inductive Refusal where
  /-- raised by `exec` alone, for an instruction that has no meaning yet; safe -/
  | notModelled (mnemonic : String)
  /-- raised by a command that reads IN when a byte of `IN[0 .. IN_LEN)` lacks its written mark (20_memory.md R53); safe -/
  | unwrittenInput
  /-- raised by a host write of IN_LEN above IN_CAP (10_state.md R30); safe -/
  | inLenAboveCapacity
  /-- raised by a register access of a wrong width, or at an offset that is no register's own (10_state.md R34); safe -/
  | registerAccess
  /-- raised by a host access of IN or OUT at or above its capacity (20_memory.md R51, R52); safe -/
  | bufferRange
  deriving DecidableEq, Repr

/-- The whole state: the registers and buffers of 10_state.md R20, then the parameters of 00_scope.md R6, then the
model's own fields (assumption logs 1, 3, 5, 10). -/
structure State where
  /-- CMD (R23) -/
  cmd : Half
  /-- STATUS (R24); read it through `statusWord` and `errCode` -/
  status : Half
  /-- CTRL (R25); read it through `ctrlWord` and `cfg` -/
  ctrl : Half
  /-- LIMIT (R26) -/
  limit : Word
  /-- VAL (R27) -/
  val : Word
  /-- RES (R28) -/
  res : Word
  /-- CNT (R29) -/
  cnt : Word
  /-- IN_LEN (R30) -/
  inLen : Word
  /-- OUT_LEN (R31) -/
  outLen : Word
  /-- IN and its written marks: an index is listed exactly when its mark is set (R37) -/
  inBuf : Memory
  /-- OUT: the bytes written since reset (20_memory.md R52) -/
  outBuf : Memory
  /-- the implementation's parameters (00_scope.md R6), never written by a step -/
  params : Params
  /-- the model's own: how many resets have happened; the free values of unwritten bytes are applied to it -/
  resetEpoch : Nat
  /-- the model's own: the host's accesses still to come, the next one first -/
  hostQueue : List HostAccess
  /-- the model's own: the data that the host's last read returned -/
  hostReply : Option Word
  deriving DecidableEq, Repr

/-- The machine right after reset: the registers of 70_reset_and_hazards.md R231, the buffers of R232 (nothing listed:
every mark clear, every byte unspecified), and no host access yet (R233: the block is idle). -/
def State.reset : State :=
  { cmd := 0x00000000, status := 0x00000000, ctrl := 0x0000000C, limit := 65536,
    val := 0, res := 0, cnt := 0, inLen := 0, outLen := 0,
    inBuf := [], outBuf := [],
    params := Config.referenceParams, resetEpoch := 0, hostQueue := [], hostReply := none }

end Sys2Proof.Machine
end

