-- ==== Sys2Proof/Machine/Operands.lean ====
section
/-! DEFINITION. The operand forms (spec 30_encoding.md R72): VAL read as each command reads it (00_scope.md R8), byte
sequences and their numeric value (R9), bit fields (R7), and the configuration view of CTRL and LIMIT (R11). -/

namespace Sys2Proof.Machine

/-- `le_bytes(v, n)` (R9): the low `n` bytes of `v`, the least significant byte first. -/
def leBytes (v : Nat) (n : Nat) : List Byte :=
  match n with
  | 0 => []
  | k + 1 => BitVec.ofNat 8 v :: leBytes (v / 256) k

/-- `be_bytes(v, n)` (R9). -/
def beBytes (v : Nat) (n : Nat) : List Byte := (leBytes v n).reverse

/-- `le_value(s)` (R9): the sum of `s[i] * 256^i`. -/
def leValue (s : List Byte) : Nat :=
  match s with
  | [] => 0
  | b :: rest => b.toNat + 256 * leValue rest

/-- `be_value(s)` (R9). -/
def beValue (s : List Byte) : Nat := leValue s.reverse

/-- The field of `len` bits from bit `lo` up, of a 32-bit register (R7). -/
def getField (w : Half) (lo len : Nat) : Nat := (w.extractLsb' lo len).toNat

/-- The register with the field of `len` bits from bit `lo` up replaced by `v`, every other bit kept (R7). -/
def putField (w : Half) (lo len v : Nat) : Half :=
  let mask : Half := (BitVec.allOnes len).setWidth 32 <<< lo
  (w &&& ~~~mask) ||| ((BitVec.ofNat 32 v <<< lo) &&& mask)

/-- The bits of CTRL that exist, 3:0; CTRL[31:4] is hardwired 0 (10_state.md R25). -/
def ctrlMask : Half := 0x0000000F

/-- CTRL as the host and the unit read it: the reserved bits are 0 (R25, R32). -/
def State.ctrlWord (s : State) : Half := s.ctrl &&& ctrlMask

/-- `width(IW)` in bytes (00_scope.md R11). -/
def widthOfCode (code : Nat) : Nat := 2 ^ code

/-- The IW code of a width in bytes, for the legal widths alone (45_config.md R193). -/
def codeOfWidth (n : Nat) : Option Nat :=
  if n = 1 then some 0 else if n = 2 then some 1 else if n = 4 then some 2 else if n = 8 then some 3 else none

/-- The Configuration the family rules read (R11): BO is CTRL bit 0, MODE bit 1, IW bits 3:2 (10_state.md R25). -/
def State.cfg (s : State) : Cfg :=
  { byteOrder := if getField s.ctrlWord 0 1 = 0 then .littleEndian else .bigEndian,
    mode := if getField s.ctrlWord 1 1 = 0 then .fixed else .variableLen,
    intWidth := widthOfCode (getField s.ctrlWord 2 2),
    sizeLimit := s.limit.toNat }

/-- VAL read as an unsigned 64-bit value (10_state.md R27). -/
def State.valUnsigned (s : State) : Nat := s.val.toNat

/-- VAL read as a two's-complement 64-bit value, `s(VAL, 64)` (R8, R27). -/
def State.valSigned (s : State) : Int := s.val.toInt

/-- `VAL[31:0]`: all that a 32-bit command reads (R27; 44_integer.md R181). -/
def State.valLow (s : State) : Half := s.val.extractLsb' 0 32

/-- The 64-bit pattern of an integer, `v mod 2^64` (R8). -/
def wordOfInt (v : Int) : Word := BitVec.ofInt 64 v

/-- The 64-bit pattern of an unsigned number (R7). -/
def wordOfNat (v : Nat) : Word := BitVec.ofNat 64 v

end Sys2Proof.Machine
end

