-- ==== Sys2Proof/Machine/Flags.lean ====
section
/-! DEFINITION. The block's only condition indicator, STATUS.ERR (spec 10_state.md R24, R35), and its codes
(60_exceptions.md R200). There are no flags or condition codes. -/

namespace Sys2Proof.Machine

/-- The STATUS.ERR code of an error kind (60_exceptions.md R200). -/
def ErrKind.code (e : ErrKind) : BitVec 4 :=
  match e with
  | .sizeLimitExceeded => 1
  | .insufficientData => 2
  | .lengthExceedsLimit => 3
  | .lengthOverflow => 4
  | .trailingBytes => 5
  | .invalidMarker => 6
  | .outOfRange => 7
  | .invalidConfiguration => 8
  | .illegalCommand => 9

/-- The STATUS register holding an ERR code, STATUS[31:4] being hardwired 0 (R24). -/
def statusOfCode (code : BitVec 4) : Half := code.setWidth 32

/-- STATUS as the host reads it: the reserved bits are 0 (R24, R32). -/
def State.statusWord (s : State) : Half := s.status &&& 0x0000000F

/-- STATUS.ERR (R24). -/
def State.errCode (s : State) : Nat := getField s.status 0 4

/-- `STATUS.ERR <- code` (R24). -/
def State.setErr (code : BitVec 4) (s : State) : State := { s with status := statusOfCode code }

end Sys2Proof.Machine
end

