-- ==== Sys2Proof/Machine/Ops.lean ====
section
/-! DEFINITION. The named operations: buffers as lists of cells, MemRead and MemWrite (spec 20_memory.md R53, R54), the
result registers (10_state.md R28, R29), writing CTRL (R25), taking an error (60_exceptions.md R202) and ending a
command (R203). -/

namespace Sys2Proof.Machine

/-- The byte listed at an index, none where the index has not been written since reset. -/
def Memory.read (m : Memory) (a : Nat) : Option Byte :=
  match m with
  | [] => none
  | (k, b) :: rest => if k = a then some b else Memory.read rest a

/-- One byte written; the list stays sorted, one cell an index. -/
def Memory.write (m : Memory) (a : Nat) (b : Byte) : Memory :=
  match m with
  | [] => [(a, b)]
  | (k, c) :: rest =>
    if a < k then (a, b) :: (k, c) :: rest
    else if a = k then (a, b) :: rest
    else (k, c) :: Memory.write rest a b

/-- The `n` bytes from index `a` up, none if one of them is not listed (20_memory.md R53). -/
def Memory.readRange (m : Memory) (a n : Nat) : Option (List Byte) :=
  match n with
  | 0 => some []
  | k + 1 =>
    match Memory.read m a with
    | none => none
    | some b =>
      match Memory.readRange m (a + 1) k with
      | none => none
      | some bs => some (b :: bs)

/-- The bytes of a sequence written from index `a` up (20_memory.md R54). -/
def Memory.writeRange (m : Memory) (a : Nat) (bs : List Byte) : Memory :=
  match bs with
  | [] => m
  | b :: rest => Memory.writeRange (Memory.write m a b) (a + 1) rest

/-- The canonical form: indices strictly rising. An unlisted index holds no value, so no cell equals it. -/
def Memory.wf (m : Memory) : Bool :=
  match m with
  | [] => true
  | [_] => true
  | (k, _) :: (l, c) :: rest => decide (k < l) && Memory.wf ((l, c) :: rest)

/-- Every listed index is below a capacity. -/
def Memory.within (m : Memory) (cap : Nat) : Bool := m.all fun cell => decide (cell.1 < cap)

/-- `MemRead(IN, 0, IN_LEN)` (20_memory.md R53): none if a byte lacks its written mark. -/
def State.memRead (s : State) : Option (List Byte) := s.inBuf.readRange 0 s.inLen.toNat

/-- `MemWrite(OUT, 0, n, s)` with `OUT_LEN <- n` (20_memory.md R54). -/
def State.memWrite (bs : List Byte) (s : State) : State :=
  { s with outBuf := s.outBuf.writeRange 0 bs, outLen := wordOfNat bs.length }

/-- `RES <- v` (10_state.md R28). -/
def State.writeRes (v : Word) (s : State) : State := { s with res := v }

/-- `CNT <- n` (10_state.md R29). -/
def State.writeCnt (n : Nat) (s : State) : State := { s with cnt := wordOfNat n }

/-- CTRL written, its reserved bits staying 0 (10_state.md R25). -/
def State.writeCtrl (w : Half) (s : State) : State := { s with ctrl := w &&& ctrlMask }

/-- `CTRL.BO <- v` (R25). -/
def State.writeBO (v : Nat) (s : State) : State := s.writeCtrl (putField s.ctrlWord 0 1 v)

/-- `CTRL.MODE <- v` (R25). -/
def State.writeMode (v : Nat) (s : State) : State := s.writeCtrl (putField s.ctrlWord 1 1 v)

/-- `CTRL.IW <- v` (R25). -/
def State.writeIW (v : Nat) (s : State) : State := s.writeCtrl (putField s.ctrlWord 2 2 v)

/-- `LIMIT <- v` (10_state.md R26). -/
def State.writeLimit (v : Word) (s : State) : State := { s with limit := v }

/-- `raise E` (00_scope.md R10, 60_exceptions.md R202): STATUS.ERR takes the kind's code and nothing else is written.
Nothing is saved, no mode changes and control goes nowhere, so there is no return from it: the next CMD write runs
normally (R207). -/
def State.raise (e : ErrKind) (s : State) : State := s.setErr e.code

/-- The last action of a command that raises nothing: `STATUS.ERR <- 0` (60_exceptions.md R203). -/
def State.succeed (s : State) : State := s.setErr 0

/-- A command that ends without a check: its writes, then ERR 0 (R203). -/
def State.complete (s : State) : Host.Outcome State Fault Refusal := .next s.succeed

/-- The end of a command whose pseudocode computes `r` from the state `s`: on an error, only STATUS is written (R202);
else the command's writes happen and ERR is 0 (R203). -/
def State.conclude {α : Type} (s : State) (r : Except ErrKind α) (writes : α → State → State) :
    Host.Outcome State Fault Refusal :=
  match r with
  | .error e => .next (s.raise e)
  | .ok a => (writes a s).complete

/-- A command that reads IN: refused, before any error check, if a byte of `IN[0 .. IN_LEN)` is unwritten
(20_memory.md R53, 60_exceptions.md R204); else it goes on with the bytes. -/
def State.withInput (s : State) (k : List Byte → Host.Outcome State Fault Refusal) : Host.Outcome State Fault Refusal :=
  match s.memRead with
  | none => .refused .unwrittenInput
  | some bs => k bs

end Sys2Proof.Machine
end

