-- ==== Sys2Proof/Machine/Configuration.lean ====
section
/-! DEFINITION. The configuration commands (spec 45_config.md R190 to R196): each replaces the configuration held in CTRL
and LIMIT, or raises and stores nothing. -/

namespace Sys2Proof.Machine

/-- `CFG.STD` (R191). -/
def execCfgStd (s : State) : Host.Outcome State Fault Refusal :=
  ((((s.writeBO 0).writeMode 0).writeIW 3).writeLimit 65536).complete

/-- `CFG.BE` (R192). -/
def execCfgBe (s : State) : Host.Outcome State Fault Refusal := (s.writeBO 1).complete

/-- The IW code of the width of CFG.FIXW, or InvalidConfiguration (R193). -/
def fixedWidthCode (n : Nat) : Except ErrKind Nat :=
  match codeOfWidth n with
  | none => .error .invalidConfiguration
  | some c => .ok c

/-- `CFG.FIXW n` (R193): Fixed mode with width n. -/
def execCfgFixw (n : Nat) (s : State) : Host.Outcome State Fault Refusal :=
  s.conclude (fixedWidthCode n) fun code t => (t.writeMode 0).writeIW code

/-- `CFG.VAR` (R194): Variable mode, IW kept. -/
def execCfgVar (s : State) : Host.Outcome State Fault Refusal := (s.writeMode 1).complete

/-- `CFG.LIMIT` (R195). -/
def execCfgLimit (s : State) : Host.Outcome State Fault Refusal := (s.writeLimit s.val).complete

end Sys2Proof.Machine
end

