-- ==== Sys2Proof/Machine/ByteOrder.lean ====
section
/-! DEFINITION. The byte-order unit (spec 42_byte_order.md): fixed-width emit and reconstruct, and the commands FX.ENC,
FX.DECS and FX.DECU, which use CTRL.IW and CTRL.BO in either mode. -/

namespace Sys2Proof.Machine

/-- `emit_fixed(v, n, bo)` (R120): the low n bytes, the bytes above them dropped without a check (90_conflicts.md C3). -/
def emitFixed (v : Word) (n : Nat) (bo : ByteOrder) : List Byte :=
  match bo with
  | .littleEndian => leBytes v.toNat n
  | .bigEndian => beBytes v.toNat n

/-- The number that n bytes hold in a byte order (R121). -/
def orderedValue (bs : List Byte) (bo : ByteOrder) : Nat :=
  match bo with
  | .littleEndian => leValue bs
  | .bigEndian => beValue bs

/-- The most significant payload byte (R121): the last for LittleEndian, the first for BigEndian. -/
def topByte (bs : List Byte) (bo : ByteOrder) : Byte :=
  match bo with
  | .littleEndian => bs.getLastD 0
  | .bigEndian => bs.headD 0

/-- `reconstruct(bs, n, bo, signed)` with `n = len(bs)` (R121): sign extension fills the high bytes with 0xFF when the top
bit of the most significant payload byte is set, else the fill is 0x00. -/
def reconstruct (bs : List Byte) (bo : ByteOrder) (signed : Bool) : Word :=
  if signed = true ∧ 128 ≤ (topByte bs bo).toNat then
    wordOfNat (orderedValue bs bo + (2 ^ 64 - 2 ^ (8 * bs.length)))
  else wordOfNat (orderedValue bs bo)

/-- The shared part of FX.DECS and FX.DECU (R124, R125): the word in the first n bytes, or InsufficientData. -/
def fixedFromInput (bs : List Byte) (n : Nat) (bo : ByteOrder) (signed : Bool) : Except ErrKind Word :=
  if bs.length < n then .error .insufficientData else .ok (reconstruct (bs.take n) bo signed)

/-- `FX.ENC` (R123). -/
def execFxEnc (s : State) : Host.Outcome State Fault Refusal :=
  (s.memWrite (emitFixed s.val s.cfg.intWidth s.cfg.byteOrder)).complete

/-- `FX.DECS` (R124). -/
def execFxDecs (s : State) : Host.Outcome State Fault Refusal :=
  s.withInput fun bs =>
    s.conclude (fixedFromInput bs s.cfg.intWidth s.cfg.byteOrder true) fun w t =>
      (t.writeRes w).writeCnt s.cfg.intWidth

/-- `FX.DECU` (R125). -/
def execFxDecu (s : State) : Host.Outcome State Fault Refusal :=
  s.withInput fun bs =>
    s.conclude (fixedFromInput bs s.cfg.intWidth s.cfg.byteOrder false) fun w t =>
      (t.writeRes w).writeCnt s.cfg.intWidth

end Sys2Proof.Machine
end

