-- ==== Sys2Proof/Machine/LengthPrefix.lean ====
section
/-! DEFINITION. The length-prefix encoder and decoder and blob framing (spec 41_length_prefix.md), and the commands
LP.ENC, LP.DEC, BLOB.SER and BLOB.DES. -/

namespace Sys2Proof.Machine

/-- The marker scheme of `lp_encode` in Variable mode, always little-endian (R100). -/
def lpEncodeVariable (len : Nat) : List Byte :=
  if len < 251 then [BitVec.ofNat 8 len]
  else if len < 2 ^ 16 then 0xFB :: leBytes len 2
  else if len < 2 ^ 32 then 0xFC :: leBytes len 4
  else 0xFD :: leBytes len 8

/-- `lp_encode(len, cfg)` (R100). -/
def lpEncode (len : Nat) (cfg : Cfg) : List Byte :=
  match cfg.mode with
  | .fixed =>
    match cfg.byteOrder with
    | .littleEndian => leBytes len 8
    | .bigEndian => beBytes len 8
  | .variableLen => lpEncodeVariable len

/-- The width in bytes of the field after a marker 0xfb to 0xfe (R101). -/
def markerWidth (m : Nat) : Nat :=
  if m = 0xFB then 2 else if m = 0xFC then 4 else if m = 0xFD then 8 else 16

/-- `lp_decode` in Fixed mode (R101). -/
def lpDecodeFixed (bs : List Byte) (bo : ByteOrder) : Except ErrKind (Nat × Nat) :=
  if bs.length < 8 then .error .insufficientData else .ok (orderedValue (bs.take 8) bo, 8)

/-- `lp_decode` in Variable mode (R101): no LEB128 fallback (R103), non-minimal forms accepted (R102). -/
def lpDecodeVariable (bs : List Byte) : Except ErrKind (Nat × Nat) :=
  match bs with
  | [] => .error .insufficientData
  | m :: rest =>
    if m.toNat ≤ 250 then .ok (m.toNat, 1)
    else if m = 0xFF then .error .invalidMarker
    else if rest.length < markerWidth m.toNat then .error .insufficientData
    else if 2 ^ 64 ≤ leValue (rest.take (markerWidth m.toNat)) then .error .lengthOverflow
    else .ok (leValue (rest.take (markerWidth m.toNat)), 1 + markerWidth m.toNat)

/-- `lp_decode(bs, cfg)` (R101): the length and the number of bytes consumed. -/
def lpDecode (bs : List Byte) (cfg : Cfg) : Except ErrKind (Nat × Nat) :=
  match cfg.mode with
  | .fixed => lpDecodeFixed bs cfg.byteOrder
  | .variableLen => lpDecodeVariable bs

/-- `blob_serialize(data, cfg)` (R104). -/
def blobSerialize (data : List Byte) (cfg : Cfg) : Except ErrKind (List Byte) :=
  if cfg.sizeLimit < data.length then .error .sizeLimitExceeded
  else .ok (lpEncode data.length cfg ++ data)

/-- The checks of `blob_deserialize` after the prefix, in the source's order (R105). -/
def blobUnframe (wire : List Byte) (length p : Nat) (cfg : Cfg) (hostSizeMax : Nat) :
    Except ErrKind (List Byte × Nat) :=
  if cfg.sizeLimit < length then .error .lengthExceedsLimit
  else if hostSizeMax < length then .error .lengthOverflow
  else if wire.length < p + length then .error .insufficientData
  else if wire.length ≠ p + length then .error .trailingBytes
  else .ok ((wire.drop p).take length, length)

/-- `blob_deserialize(wire, cfg)` (R105): the payload and its length. -/
def blobDeserialize (wire : List Byte) (cfg : Cfg) (hostSizeMax : Nat) : Except ErrKind (List Byte × Nat) :=
  if wire.length = 0 then .error .insufficientData
  else
    match lpDecode wire cfg with
    | .error e => .error e
    | .ok (length, p) => blobUnframe wire length p cfg hostSizeMax

/-- `LP.ENC` (R106). -/
def execLpEnc (s : State) : Host.Outcome State Fault Refusal :=
  (s.memWrite (lpEncode s.valUnsigned s.cfg)).complete

/-- `BLOB.SER` (R108). -/
def execBlobSer (s : State) : Host.Outcome State Fault Refusal :=
  s.withInput fun data => s.conclude (blobSerialize data s.cfg) State.memWrite

/-- `LP.DEC` (R107). -/
def execLpDec (s : State) : Host.Outcome State Fault Refusal :=
  s.withInput fun bs =>
    s.conclude (lpDecode bs s.cfg) fun r t => (t.writeRes (wordOfNat r.1)).writeCnt r.2

/-- `BLOB.DES` (R109): on success the record fills IN exactly, so CNT is IN_LEN. -/
def execBlobDes (s : State) : Host.Outcome State Fault Refusal :=
  s.withInput fun wire =>
    s.conclude (blobDeserialize wire s.cfg s.params.hostSizeMax) fun r t =>
      ((t.memWrite r.1).writeRes (wordOfNat r.2)).writeCnt s.inLen.toNat

end Sys2Proof.Machine
end

