-- ==== Sys2Proof/Machine/Varint.lean ====
section
/-! DEFINITION. The variable-length integer encoder and decoder (spec 43_varint.md): zigzag and classic LEB128, and the
commands ZZ.ENC32, ZZ.ENC64, LEB.ENC, ZZ.DEC32, ZZ.DEC64 and LEB.DEC. -/

namespace Sys2Proof.Machine

/-- `zz(v, N)` (R140); the formula is the same for N = 32 and N = 64. -/
def zz (v : Int) : Nat := if 0 ≤ v then (2 * v).toNat else (-2 * v - 1).toNat

/-- `unzz(u)` (R141). -/
def unzz (u : Nat) : Int := if u % 2 = 0 then (u / 2 : Nat) else -((u / 2 : Nat) : Int) - 1

/-- The loop of `leb128_encode` (R142), at most `fuel + 1` groups: the next group is `u & 0x7F`, bit 7 says that another
byte follows. -/
def lebEncodeLoop (fuel u : Nat) : List Byte :=
  match fuel with
  | 0 => [BitVec.ofNat 8 (u % 128)]
  | k + 1 =>
    if u / 128 = 0 then [BitVec.ofNat 8 (u % 128)]
    else BitVec.ofNat 8 (u % 128 + 128) :: lebEncodeLoop k (u / 128)

/-- `leb128_encode(u)` for u below 2^64 (R142): ten groups hold 70 bits, so the loop's bound is never reached
(R144; assumption log 20). -/
def leb128Encode (u : Nat) : List Byte := lebEncodeLoop 9 u

/-- The loop of `leb128_decode` (R143): `i` bytes read so far with value `acc`, in unbounded arithmetic. -/
def lebDecodeLoop (bs : List Byte) (i acc : Nat) : Except ErrKind (Nat × Nat) :=
  match bs with
  | [] => .error .insufficientData
  | b :: rest =>
    let acc' := acc + b.toNat % 128 * 2 ^ (7 * i)
    if b.toNat < 128 then .ok (acc', i + 1) else lebDecodeLoop rest (i + 1) acc'

/-- `leb128_decode(bs)` (R143): the value and the number of bytes consumed. -/
def leb128Decode (policy : NoncanonPolicy) (bs : List Byte) : Except ErrKind (Nat × Nat) :=
  match lebDecodeLoop bs 0 0 with
  | .error e => .error e
  | .ok (acc, i) =>
    if 2 ^ 64 ≤ acc then .error .outOfRange
    else if policy = .reject ∧ i ≠ (leb128Encode acc).length then .error .outOfRange
    else .ok (acc, i)

/-- The i32 range check of R149 and R171: the value, or OutOfRange. -/
def checkInt32 (v : Int) : Except ErrKind Int :=
  if v < -2 ^ 31 ∨ 2 ^ 31 - 1 < v then .error .outOfRange else .ok v

/-- `ZZ.ENC32` (R146). -/
def execZzEnc32 (s : State) : Host.Outcome State Fault Refusal :=
  (s.writeRes (wordOfNat (zz s.valLow.toInt))).complete

/-- `ZZ.ENC64` (R147). -/
def execZzEnc64 (s : State) : Host.Outcome State Fault Refusal :=
  (s.writeRes (wordOfNat (zz s.valSigned))).complete

/-- `LEB.ENC` (R148). -/
def execLebEnc (s : State) : Host.Outcome State Fault Refusal :=
  (s.memWrite (leb128Encode s.valUnsigned)).complete

/-- `ZZ.DEC32` (R149). -/
def execZzDec32 (s : State) : Host.Outcome State Fault Refusal :=
  s.conclude (checkInt32 (unzz s.valUnsigned)) fun v t => t.writeRes (wordOfInt v)

/-- `ZZ.DEC64` (R150). -/
def execZzDec64 (s : State) : Host.Outcome State Fault Refusal :=
  (s.writeRes (wordOfInt (unzz s.valUnsigned))).complete

/-- `LEB.DEC` (R151). -/
def execLebDec (s : State) : Host.Outcome State Fault Refusal :=
  s.withInput fun bs =>
    s.conclude (leb128Decode s.params.lebNoncanon bs) fun r t => (t.writeRes (wordOfNat r.1)).writeCnt r.2

end Sys2Proof.Machine
end

