-- ==== Sys2Proof/Machine/Integer.lean ====
section
/-! DEFINITION. Integer records (spec 44_integer.md): payloads in both modes, narrowing, and the commands SER.I32,
SER.U32, SER.I64, DES.I32, DES.U32 and DES.I64. -/

namespace Sys2Proof.Machine

/-- `int_payload(x, Wd, signed, cfg)` (R170). -/
def intPayload {wd : Nat} (x : BitVec wd) (signed : Bool) (cfg : Cfg) : List Byte :=
  match cfg.mode with
  | .fixed => emitFixed (if signed then x.signExtend 64 else x.zeroExtend 64) cfg.intWidth cfg.byteOrder
  | .variableLen => if signed then leb128Encode (zz x.toInt) else leb128Encode x.toNat

/-- `narrow32(w, signed)` (R172): the low 32 bits extended, or OutOfRange for a word that does not fit when P_NARROW is
Reject. -/
def narrow32 (policy : NarrowPolicy) (w : Word) (signed : Bool) : Except ErrKind Word :=
  let r : Word := if signed then (w.extractLsb' 0 32).signExtend 64 else (w.extractLsb' 0 32).zeroExtend 64
  if policy = .reject ∧ r ≠ w then .error .outOfRange else .ok r

/-- The Fixed-mode part of `int_value` (R171): the first `intWidth` payload bytes reconstructed, then narrowed for a
32-bit target. -/
def intValueFixed (p : List Byte) (wd : Nat) (signed : Bool) (cfg : Cfg) (params : Params) : Except ErrKind Word :=
  if p.length < cfg.intWidth then .error .insufficientData
  else if cfg.intWidth < p.length ∧ params.intExcess = .reject then .error .trailingBytes
  else
    let w := reconstruct (p.take cfg.intWidth) cfg.byteOrder signed
    if wd = 64 then .ok w else narrow32 params.narrow w signed

/-- The last part of `int_value` in Variable mode (R171): inverse zigzag for a signed target, and the range check of a
32-bit one. -/
def intOfVarint (u : Nat) (wd : Nat) (signed : Bool) : Except ErrKind Word :=
  if signed then
    if wd = 32 then
      match checkInt32 (unzz u) with
      | .error e => .error e
      | .ok v => .ok (wordOfInt v)
    else .ok (wordOfInt (unzz u))
  else if wd = 32 ∧ 2 ^ 32 - 1 < u then .error .outOfRange
  else .ok (wordOfNat u)

/-- The Variable-mode part of `int_value` (R171). -/
def intValueVariable (p : List Byte) (wd : Nat) (signed : Bool) (params : Params) : Except ErrKind Word :=
  match leb128Decode params.lebNoncanon p with
  | .error e => .error e
  | .ok (u, c) =>
    if c < p.length ∧ params.intExcess = .reject then .error .trailingBytes
    else intOfVarint u wd signed

/-- `int_value(p, Wd, signed, cfg)` (R171). -/
def intValue (p : List Byte) (wd : Nat) (signed : Bool) (cfg : Cfg) (params : Params) : Except ErrKind Word :=
  match cfg.mode with
  | .fixed => intValueFixed p wd signed cfg params
  | .variableLen => intValueVariable p wd signed params

/-- The value of a whole integer record: unframe the blob, then read its payload (R173). -/
def recordValue (wire : List Byte) (wd : Nat) (signed : Bool) (cfg : Cfg) (params : Params) : Except ErrKind Word :=
  match blobDeserialize wire cfg params.hostSizeMax with
  | .error e => .error e
  | .ok (p, _) => intValue p wd signed cfg params

/-- The record of an integer: its payload framed as a blob (R173). -/
def intRecord {wd : Nat} (x : BitVec wd) (signed : Bool) (cfg : Cfg) : Except ErrKind (List Byte) :=
  blobSerialize (intPayload x signed cfg) cfg

/-- `SER.I32` (R174). -/
def execSerI32 (s : State) : Host.Outcome State Fault Refusal :=
  s.conclude (intRecord s.valLow true s.cfg) State.memWrite

/-- `SER.U32` (R175). -/
def execSerU32 (s : State) : Host.Outcome State Fault Refusal :=
  s.conclude (intRecord s.valLow false s.cfg) State.memWrite

/-- `SER.I64` (R176). -/
def execSerI64 (s : State) : Host.Outcome State Fault Refusal :=
  s.conclude (intRecord s.val true s.cfg) State.memWrite

/-- The shared part of the DES commands (R177 to R179): RES takes the record's value and CNT is IN_LEN. -/
def State.deserialize (s : State) (wd : Nat) (signed : Bool) : Host.Outcome State Fault Refusal :=
  s.withInput fun wire =>
    s.conclude (recordValue wire wd signed s.cfg s.params) fun v t => (t.writeRes v).writeCnt s.inLen.toNat

/-- `DES.I32` (R177). -/
def execDesI32 (s : State) : Host.Outcome State Fault Refusal := s.deserialize 32 true

/-- `DES.U32` (R178). -/
def execDesU32 (s : State) : Host.Outcome State Fault Refusal := s.deserialize 32 false

/-- `DES.I64` (R179). -/
def execDesI64 (s : State) : Host.Outcome State Fault Refusal := s.deserialize 64 true

end Sys2Proof.Machine
end

