-- ==== Sys2Proof/Machine/Dispatch.lean ====
section
/-! DEFINITION. The meaning of each command, one arm per constructor (spec 30_encoding.md R73). -/

namespace Sys2Proof.Machine

def exec (i : Instr) (s : State) : Host.Outcome State Fault Refusal :=
  match i with
  | .cfgStd => Sys2Proof.Machine.execCfgStd s
  | .cfgBe => Sys2Proof.Machine.execCfgBe s
  | .cfgFixw n => Sys2Proof.Machine.execCfgFixw n s
  | .cfgVar => Sys2Proof.Machine.execCfgVar s
  | .cfgLimit => Sys2Proof.Machine.execCfgLimit s
  | .zzEnc32 => Sys2Proof.Machine.execZzEnc32 s
  | .zzEnc64 => Sys2Proof.Machine.execZzEnc64 s
  | .lebEnc => Sys2Proof.Machine.execLebEnc s
  | .zzDec32 => Sys2Proof.Machine.execZzDec32 s
  | .zzDec64 => Sys2Proof.Machine.execZzDec64 s
  | .lebDec => Sys2Proof.Machine.execLebDec s
  | .lpEnc => Sys2Proof.Machine.execLpEnc s
  | .blobSer => Sys2Proof.Machine.execBlobSer s
  | .lpDec => Sys2Proof.Machine.execLpDec s
  | .blobDes => Sys2Proof.Machine.execBlobDes s
  | .fxEnc => Sys2Proof.Machine.execFxEnc s
  | .fxDecs => Sys2Proof.Machine.execFxDecs s
  | .fxDecu => Sys2Proof.Machine.execFxDecu s
  | .serI32 => Sys2Proof.Machine.execSerI32 s
  | .serU32 => Sys2Proof.Machine.execSerU32 s
  | .serI64 => Sys2Proof.Machine.execSerI64 s
  | .desI32 => Sys2Proof.Machine.execDesI32 s
  | .desU32 => Sys2Proof.Machine.execDesU32 s
  | .desI64 => Sys2Proof.Machine.execDesI64 s

end Sys2Proof.Machine
end

