-- ==== Sys2Proof/Machine/HostPort.lean ====
section
/-! DEFINITION. The host interface (spec 70_reset_and_hazards.md R238, 10_state.md R22 to R34, 20_memory.md R50 to R52):
register accesses, buffer accesses, the CMD write that runs a command, and the reset event. -/

namespace Sys2Proof.Machine

/-- The registers in the order of their offsets (10_state.md R22). -/
def allRegs : List Reg := [.cmd, .status, .ctrl, .limit, .val, .res, .cnt, .inLen, .outLen]

/-- The byte offset of a register in REG (R22). -/
def Reg.offset (r : Reg) : Nat :=
  match r with
  | .cmd => 0x00
  | .status => 0x04
  | .ctrl => 0x08
  | .limit => 0x10
  | .val => 0x18
  | .res => 0x20
  | .cnt => 0x28
  | .inLen => 0x30
  | .outLen => 0x38

/-- The width of a register in bits (R22, R34). -/
def Reg.width (r : Reg) : Nat :=
  match r with
  | .cmd | .status | .ctrl => 32
  | .limit | .val | .res | .cnt | .inLen | .outLen => 64

/-- Where a register access goes: a register, a reserved offset, or nowhere (refused). -/
inductive RegTarget where
  | reg (r : Reg)
  | reserved
  | noAccess
  deriving DecidableEq, Repr

/-- A register's own offset with its own width (R34); the reserved word 0x0C with its width 32, and every offset from
0x40 up with a width the bus has, 32 or 64 (R22, R32; 20_memory.md R58; assumption log 14). Nothing else (R57). -/
def regTarget (offset bits : Nat) : RegTarget :=
  match allRegs.find? fun r => decide (r.offset = offset) with
  | some r => if bits = r.width then .reg r else .noAccess
  | none =>
    if offset = 0x0C then if bits = 32 then .reserved else .noAccess
    else if 0x40 ≤ offset then if bits = 32 ∨ bits = 64 then .reserved else .noAccess
    else .noAccess

/-- The value a register reads as, zero-extended to 64 bits (R23 to R32). -/
def State.regValue (s : State) (r : Reg) : Word :=
  match r with
  | .cmd => s.cmd.zeroExtend 64
  | .status => s.statusWord.zeroExtend 64
  | .ctrl => s.ctrlWord.zeroExtend 64
  | .limit => s.limit
  | .val => s.val
  | .res => s.res
  | .cnt => s.cnt
  | .inLen => s.inLen
  | .outLen => s.outLen

/-- The data a host read returns; a read changes nothing else (20_memory.md R59). -/
def State.reply (v : Word) (s : State) : Host.Outcome State Fault Refusal := .next { s with hostReply := some v }

/-- A host read in REG (R32, R34). -/
def hostReadReg (offset bits : Nat) (s : State) : Host.Outcome State Fault Refusal :=
  match regTarget offset bits with
  | .reg r => s.reply (s.regValue r)
  | .reserved => s.reply 0
  | .noAccess => .refused .registerAccess

/-- A host write of CMD (10_state.md R23): the word is stored and the command it encodes runs in the same step; a word
the decoder rejects raises IllegalCommand (30_encoding.md R74, R78). -/
def runCommand (w : Half) (s : State) : Host.Outcome State Fault Refusal :=
  match decode w with
  | .ok i => exec i { s with cmd := w }
  | .error _ => .next (State.raise .illegalCommand { s with cmd := w })

/-- A host write of IN_LEN (10_state.md R30). -/
def hostWriteInLen (data : Word) (s : State) : Host.Outcome State Fault Refusal :=
  if data.toNat ≤ s.params.inCap then .next { s with inLen := data } else .refused .inLenAboveCapacity

/-- A host write of a register: CMD starts a command, VAL and IN_LEN are stored, the rest are read-only and ignore it
(10_state.md R22, R33). -/
def hostWriteTo (r : Reg) (data : Word) (s : State) : Host.Outcome State Fault Refusal :=
  match r with
  | .cmd => runCommand (data.extractLsb' 0 32) s
  | .val => .next { s with val := data }
  | .inLen => hostWriteInLen data s
  | .status | .ctrl | .limit | .res | .cnt | .outLen => .next s

/-- A host write in REG (R32 to R34). -/
def hostWriteReg (offset bits : Nat) (data : Word) (s : State) : Host.Outcome State Fault Refusal :=
  match regTarget offset bits with
  | .reg r => hostWriteTo r data s
  | .reserved => .next s
  | .noAccess => .refused .registerAccess

/-- The byte a host read of IN[a] returns: the byte written, or a free value (20_memory.md R51; 93 U1; log 8). -/
def State.inByte (s : State) (a : Nat) : Byte :=
  match s.inBuf.read a with
  | some b => b
  | none => Config.inResetByte s.resetEpoch a

/-- The byte a host read of OUT[a] returns: the last byte written, or a free value (R52; 70_reset R237; 93 U2; log 9). -/
def State.outByte (s : State) (a : Nat) : Byte :=
  match s.outBuf.read a with
  | some b => b
  | none => Config.outResetByte s.resetEpoch a

/-- A host read of IN[a] (20_memory.md R51). -/
def hostReadIn (a : Nat) (s : State) : Host.Outcome State Fault Refusal :=
  if a < s.params.inCap then s.reply ((s.inByte a).zeroExtend 64) else .refused .bufferRange

/-- A host write of IN[a], which sets the byte's written mark (R51; 10_state.md R37). -/
def hostWriteIn (a : Nat) (b : Byte) (s : State) : Host.Outcome State Fault Refusal :=
  if a < s.params.inCap then .next { s with inBuf := s.inBuf.write a b } else .refused .bufferRange

/-- A host read of OUT[a] (R52). -/
def hostReadOut (a : Nat) (s : State) : Host.Outcome State Fault Refusal :=
  if a < s.params.outCap then s.reply ((s.outByte a).zeroExtend 64) else .refused .bufferRange

/-- A host write of OUT[a]: no effect below OUT_CAP, refused from there up (R52; assumption log 30). -/
def hostWriteOut (a : Nat) (s : State) : Host.Outcome State Fault Refusal :=
  if a < s.params.outCap then .next s else .refused .bufferRange

/-- The reset event (70_reset_and_hazards.md R230): every register at its R231 value, the buffers as R232 says. The
parameters, the host's queue and its last reply are outside the block (assumption log 13). -/
def State.afterReset (s : State) : State :=
  { State.reset with
    params := s.params, resetEpoch := s.resetEpoch + 1, hostQueue := s.hostQueue, hostReply := s.hostReply }

/-- One host interaction (70_reset_and_hazards.md R238). -/
def hostAccess (x : HostAccess) (s : State) : Host.Outcome State Fault Refusal :=
  match x with
  | .readReg offset bits => hostReadReg offset bits s
  | .writeReg offset bits data => hostWriteReg offset bits data s
  | .readIn a => hostReadIn a s
  | .writeIn a b => hostWriteIn a b s
  | .readOut a => hostReadOut a s
  | .writeOut a _ => hostWriteOut a s
  | .reset => .next s.afterReset

/-- The host's next access taken from the queue and performed; with none to come the block is idle and does nothing
(70_reset_and_hazards.md R233; assumption log 2). -/
def hostStep (s : State) : Host.Outcome State Fault Refusal :=
  match s.hostQueue with
  | [] => .next s
  | x :: rest => hostAccess x { s with hostQueue := rest }

/-- The host's write of a command word to CMD (10_state.md R22, R23). -/
def cmdWrite (w : Half) : HostAccess := .writeReg 0x00 32 (w.zeroExtend 64)

end Sys2Proof.Machine
end

