-- ==== Sys2Proof/Machine/Step.lean ====
section
/-! DEFINITION. One step: the host's next access, which for a CMD write includes the whole command (spec 00_scope.md
R13, 20_memory.md R62). -/

namespace Sys2Proof.Machine

/-- One step of the machine (00_scope.md R13). -/
def step (s : State) : Host.Outcome State Fault Refusal := hostStep s

/-- The state in which the next step runs the command word `w`: the block fetches no program, so the word comes as the
host's next access, a write to CMD (10_state.md R21, R23; assumption log 4). -/
def State.withFetchWord (s : State) (nbits w : Nat) : State :=
  { s with hostQueue := cmdWrite (BitVec.ofNat 32 (w % 2 ^ nbits)) :: s.hostQueue }

end Sys2Proof.Machine
end

