-- ==== Sys2Proof/Machine/Assembler.lean ====
section
/-! DEFINITION. The spec's assembly lines as an abstract syntax (spec 30_encoding.md R79, R80): what host accesses each
line stands for. Comments, labels, `if` and `goto` are host software and make no access (R79; assumption log 21). -/

namespace Sys2Proof.Machine

/-- One line of assembly (R79) or one pseudo-instruction (R80). -/
inductive AsmLine where
  /-- a mnemonic, with its immediate for CFG.FIXW -/
  | command (i : Instr)
  /-- `VAL := v`, v possibly negative -/
  | setVal (v : Int)
  /-- `IN := [b0, ..., bk-1]` -/
  | setIn (bs : List Byte)
  /-- `IN := OUT` -/
  | copyOut
  /-- `read R` -/
  | readReg (r : Reg)
  /-- `CMD := w` -/
  | rawCommand (w : Half)
  /-- `FIXED n` -/
  | fixedWidth (n : Nat)
  /-- `VARIABLE` -/
  | variableMode
  /-- `LIMIT n` -/
  | limitTo (n : Nat)
  /-- `BIG` -/
  | big
  deriving DecidableEq, Repr

/-- The host's write of a mnemonic line: the encoded word goes to CMD (R79). -/
def commandAccess (i : Instr) : HostAccess := cmdWrite (encode i)

/-- The write of VAL: v's 64-bit two's-complement pattern (R79).
DESIGN CHOICE (assumption log 33, unsafe): for v below -2^63 or from 2^64 up, where R79 names no 64-bit write, it writes
v modulo 2^64; so does `LIMIT n` with n from 2^64 up. -/
def setValAccess (v : Int) : HostAccess := .writeReg 0x18 64 (wordOfInt v)

/-- The byte writes of IN from index `a` up (R79). -/
def inByteAccesses (a : Nat) (bs : List Byte) : List HostAccess :=
  match bs with
  | [] => []
  | b :: rest => .writeIn a b :: inByteAccesses (a + 1) rest

/-- `IN := bs`: the bytes, then IN_LEN (R79).
DESIGN CHOICE (assumption log 33, unsafe): for 2^64 bytes or more it writes IN_LEN the length modulo 2^64. -/
def setInAccesses (bs : List Byte) : List HostAccess :=
  inByteAccesses 0 bs ++ [.writeReg 0x30 64 (wordOfNat bs.length)]

/-- `OUT[a .. a+n)` as the host reads it (R79; 20_memory.md R52). -/
def State.outBytes (s : State) (a n : Nat) : List Byte :=
  match n with
  | 0 => []
  | k + 1 => s.outByte a :: State.outBytes s (a + 1) k

/-- The host accesses of a line, in order; `IN := OUT` copies `OUT[0 .. OUT_LEN)` of the state it runs in (R79, R80).
DESIGN CHOICE (assumption log 31, unsafe): `CFG.FIXW n` and `FIXED n` with n from 256 up write the word of n modulo 256.
DESIGN CHOICE (assumption log 32, unsafe): `IN := OUT` makes the writes of IN and IN_LEN alone, with no access that reads
OUT_LEN or OUT, so State.hostReply keeps its older value.
DESIGN CHOICE (assumption log 33, unsafe): `VAL := v` and `LIMIT n` with a number outside 64 bits write it modulo 2^64. -/
def asmAccesses (line : AsmLine) (s : State) : List HostAccess :=
  match line with
  | .command i => [commandAccess i]
  | .setVal v => [setValAccess v]
  | .setIn bs => setInAccesses bs
  | .copyOut => setInAccesses (s.outBytes 0 s.outLen.toNat)
  | .readReg r => [.readReg r.offset r.width]
  | .rawCommand w => [cmdWrite w]
  | .fixedWidth n => [commandAccess .cfgStd, commandAccess (.cfgFixw n)]
  | .variableMode => [commandAccess .cfgStd, commandAccess .cfgVar]
  | .limitTo n => [setValAccess n, commandAccess .cfgLimit]
  | .big => [commandAccess .cfgBe]

end Sys2Proof.Machine
end

