-- ==== Sys2Proof/Safety.lean ====
section
/-! DEFINITION. The terms claims use: the invariant of a legal state, the observation of a run
(spec 70_reset_and_hazards.md R243), which commands read IN and write which results (10_state.md R28 to R31), and
what "the input is bs" and "the output is bs" mean byte by byte (20_memory.md R53, R54). -/

namespace Sys2Proof.Machine

/-- What every step keeps: legal parameters (00_scope.md R6), a legal STATUS and CTRL with their reserved bits 0
(10_state.md R24, R25), IN_LEN and OUT_LEN within the capacities (R30; 20_memory.md R54), both buffers in canonical form
and within their capacities (20_memory.md R51, R52), and every byte of `OUT[0 .. OUT_LEN)` written since reset (R54). -/
abbrev State.Inv (s : State) : Prop :=
  s.params.Legal ∧ s.status.toNat ≤ 9 ∧ s.ctrl.toNat < 16 ∧
  s.inLen.toNat ≤ s.params.inCap ∧ s.outLen.toNat ≤ s.params.outCap ∧
  s.inBuf.wf = true ∧ s.inBuf.within s.params.inCap = true ∧
  s.outBuf.wf = true ∧ s.outBuf.within s.params.outCap = true ∧
  ∀ a < s.outLen.toNat, (s.outBuf.read a).isSome = true

/-- The observation of a run (70_reset_and_hazards.md R243). -/
structure Observation where
  status : Half
  ctrl : Half
  limit : Word
  val : Word
  res : Word
  cnt : Word
  inLen : Word
  outLen : Word
  out : Option (List Byte)
  deriving DecidableEq, Repr

/-- What is observed of a state at the end of a run; `OUT[0 .. OUT_LEN)` is there in every state that meets the
invariant (R243). -/
def State.observe (s : State) : Observation :=
  { status := s.statusWord, ctrl := s.ctrlWord, limit := s.limit, val := s.val, res := s.res, cnt := s.cnt,
    inLen := s.inLen, outLen := s.outLen, out := s.outBuf.readRange 0 s.outLen.toNat }

/-- The commands that call MemRead (41_length_prefix.md R107 to R109, 42_byte_order.md R124, R125, 43_varint.md R151,
44_integer.md R177 to R179). -/
def readsInput (i : Instr) : Bool :=
  match i with
  | .lebDec | .blobSer | .lpDec | .blobDes | .fxDecs | .fxDecu | .desI32 | .desU32 | .desI64 => true
  | .cfgStd | .cfgBe | .cfgFixw _ | .cfgVar | .cfgLimit => false
  | .zzEnc32 | .zzEnc64 | .lebEnc | .zzDec32 | .zzDec64 | .lpEnc | .fxEnc | .serI32 | .serU32 | .serI64 => false

/-- The configuration commands (45_config.md R190). -/
def writesConfig (i : Instr) : Bool :=
  match i with
  | .cfgStd | .cfgBe | .cfgFixw _ | .cfgVar | .cfgLimit => true
  | .zzEnc32 | .zzEnc64 | .lebEnc | .zzDec32 | .zzDec64 | .lebDec => false
  | .lpEnc | .blobSer | .lpDec | .blobDes | .fxEnc | .fxDecs | .fxDecu => false
  | .serI32 | .serU32 | .serI64 | .desI32 | .desU32 | .desI64 => false

/-- The commands that write OUT and OUT_LEN (10_state.md R31). -/
def writesOut (i : Instr) : Bool :=
  match i with
  | .lebEnc | .lpEnc | .blobSer | .blobDes | .fxEnc | .serI32 | .serU32 | .serI64 => true
  | .cfgStd | .cfgBe | .cfgFixw _ | .cfgVar | .cfgLimit => false
  | .zzEnc32 | .zzEnc64 | .zzDec32 | .zzDec64 | .lebDec | .lpDec | .fxDecs | .fxDecu => false
  | .desI32 | .desU32 | .desI64 => false

/-- The commands that write RES: every decode command and ZZ.ENC32, ZZ.ENC64 (10_state.md R28). -/
def writesRes (i : Instr) : Bool :=
  match i with
  | .zzEnc32 | .zzEnc64 | .zzDec32 | .zzDec64 | .lebDec | .lpDec | .blobDes | .fxDecs | .fxDecu => true
  | .desI32 | .desU32 | .desI64 => true
  | .cfgStd | .cfgBe | .cfgFixw _ | .cfgVar | .cfgLimit => false
  | .lebEnc | .lpEnc | .blobSer | .fxEnc | .serI32 | .serU32 | .serI64 => false

/-- The commands that write CNT: the decode commands that consume input bytes (10_state.md R29). -/
def writesCnt (i : Instr) : Bool :=
  match i with
  | .lebDec | .lpDec | .blobDes | .fxDecs | .fxDecu | .desI32 | .desU32 | .desI64 => true
  | .cfgStd | .cfgBe | .cfgFixw _ | .cfgVar | .cfgLimit => false
  | .zzEnc32 | .zzEnc64 | .zzDec32 | .zzDec64 | .lebEnc | .lpEnc | .blobSer | .fxEnc => false
  | .serI32 | .serU32 | .serI64 => false

/-- The error kinds a command may raise: the last column of the table of 60_exceptions.md R200, with the two rows that
the parameters add (R204). -/
def mayRaise (i : Instr) : List ErrKind :=
  match i with
  | .cfgStd | .cfgBe | .cfgVar | .cfgLimit => []
  | .cfgFixw _ => [.invalidConfiguration]
  | .zzEnc32 | .zzEnc64 | .lebEnc | .zzDec64 | .lpEnc | .fxEnc => []
  | .zzDec32 => [.outOfRange]
  | .lebDec => [.insufficientData, .outOfRange]
  | .blobSer | .serI32 | .serU32 | .serI64 => [.sizeLimitExceeded]
  | .lpDec => [.insufficientData, .lengthOverflow, .invalidMarker]
  | .blobDes => [.insufficientData, .lengthExceedsLimit, .lengthOverflow, .trailingBytes, .invalidMarker]
  | .fxDecs | .fxDecu => [.insufficientData]
  | .desI32 | .desU32 | .desI64 =>
    [.insufficientData, .lengthExceedsLimit, .lengthOverflow, .trailingBytes, .invalidMarker, .outOfRange]

/-- `MemRead(IN, 0, IN_LEN)` is `bs`, byte by byte: every one of the IN_LEN bytes is written and is that of `bs`
(20_memory.md R53). -/
abbrev State.InputIs (s : State) (bs : List Byte) : Prop :=
  bs.length = s.inLen.toNat ∧ ∀ a < bs.length, s.inBuf.read a = bs[a]?

/-- From `s` to `t` the bytes `bs` went to `OUT[0 .. n)` and n to OUT_LEN, and every other byte of OUT is as before
(20_memory.md R54, 70_reset_and_hazards.md R237). -/
def OutputIs (s t : State) (bs : List Byte) : Prop :=
  t.outLen = BitVec.ofNat 64 bs.length ∧
  ∀ a, t.outBuf.read a = if a < bs.length then bs[a]? else s.outBuf.read a

/-- From `s` to `t` only OUT, OUT_LEN and STATUS changed, and ERR is 0 (60_exceptions.md R203). -/
def OnlyOutput (s t : State) : Prop := t = { s with status := 0, outBuf := t.outBuf, outLen := t.outLen }

/-- The sum of `d i * base^i` for i below n (00_scope.md R9). -/
def digitSum (base : Nat) (d : Nat → Nat) (n : Nat) : Nat :=
  match n with
  | 0 => 0
  | k + 1 => digitSum base d k + d k * base ^ k

/-- The i-th byte of a sequence as a number (R9). -/
def byteAt (bs : List Byte) (i : Nat) : Nat := (bs.getD i 0).toNat

/-- The number the n bytes of `bs` from index `k` up hold, in a byte order (R9). -/
def numberAt (bo : ByteOrder) (bs : List Byte) (k n : Nat) : Nat :=
  match bo with
  | .littleEndian => digitSum 256 (fun i => byteAt bs (k + i)) n
  | .bigEndian => digitSum 256 (fun i => byteAt bs (k + (n - 1 - i))) n

/-- The state with STATUS.ERR the code of an error and nothing else changed (60_exceptions.md R202). -/
def State.withErr (s : State) (code : Nat) : State := { s with status := BitVec.ofNat 32 code }

end Sys2Proof.Machine
end

