-- ==== Sys2Proof/Certificates/Slice0/Obligations.lean ====
section
/-! DEFINITION. The statements for the provers, from the numbered rules of spec/. -/

open Sys2Proof Sys2Proof.Machine

/-- Decoding the encoded word of any well-formed instruction gives that instruction.
For every well-formed instruction i, every width operand included, decode (encode i) is i. (derived: 30_encoding.md section 1, 30_encoding.md section 2, 30_encoding.md section 4, 30_encoding.md section 5) -/
def Obligations.DecodeOfEncodeIsTheInstruction : Prop :=
  ∀ i : Instr, i.wellFormed = true → decode (encode i) = .ok i

/-- A word that decodes is the encoded word of the instruction it decodes to.
For every 32-bit word w: if decode w gives i, then i is well-formed and encode i is w. So no two words select one instruction and no bit of a legal word is dropped. (derived: 30_encoding.md section 2, 30_encoding.md section 4) -/
def Obligations.DecodedWordIsTheEncodedWord : Prop :=
  ∀ (w : Half) (i : Instr), decode w = .ok i → i.wellFormed = true ∧ encode i = w

/-- Words written out from the opcode map decode to their commands.
One word per family, written from the opcode map, decodes to its command: 0x10, 0x412, 0x21, 0x32, 0x41, 0x61, 0x72, 0x79. (derived: 30_encoding.md section 2) -/
def Obligations.SpecWordsDecode : Prop :=
  decode 0x00000010 = .ok .cfgStd ∧ decode 0x00000412 = .ok (.cfgFixw 4) ∧ decode 0x00000021 = .ok .zzEnc64 ∧
  decode 0x00000032 = .ok .lebDec ∧ decode 0x00000041 = .ok .blobSer ∧ decode 0x00000061 = .ok .fxDecs ∧
  decode 0x00000072 = .ok .serI64 ∧ decode 0x00000079 = .ok .desU32

/-- A CMD write of an illegal word raises IllegalCommand and changes only STATUS; every other word decodes.
A word is illegal when OP is not in the opcode map, or RSV is not 0, or IMM8 is not 0 outside CFG.FIXW. When the host writes an illegal word to CMD, the step stores the word in CMD, sets STATUS.ERR to 9 and changes nothing else. A word that is not illegal decodes to an instruction. (stated: R74) -/
def Obligations.IllegalWordRaisesIllegalCommand : Prop :=
  ∀ (s : State) (data : Word) (rest : List HostAccess), s.hostQueue = .writeReg 0x00 32 data :: rest →
    let w := data.toNat % 2 ^ 32
    let illegal := w % 256 ∉ [0x10, 0x11, 0x12, 0x13, 0x14, 0x20, 0x21, 0x22, 0x30, 0x31, 0x32, 0x40, 0x41, 0x50, 0x51,
        0x60, 0x61, 0x62, 0x70, 0x71, 0x72, 0x78, 0x79, 0x7A] ∨
      w / 2 ^ 16 ≠ 0 ∨ (w % 256 ≠ 0x12 ∧ w / 256 % 256 ≠ 0)
    (illegal → step s = .next { s with hostQueue := rest, cmd := BitVec.ofNat 32 w, status := 9 }) ∧
    (¬ illegal → ∃ i, decode (BitVec.ofNat 32 w) = .ok i)

/-- A step whose next host access writes a legal word to CMD is exec of the decoded command.
When the next host access is a 32-bit write to offset 0x00 and the word decodes to a well-formed i, the step takes the access from the queue, stores the word in CMD and is exec i of that state. (derived: 10_state.md section 3, 20_memory.md section 6, 30_encoding.md section 4) -/
def Obligations.StepRunsTheDecodedCommand : Prop :=
  ∀ (s : State) (data : Word) (rest : List HostAccess) (i : Instr),
    s.hostQueue = .writeReg 0x00 32 data :: rest → decode (data.extractLsb' 0 32) = .ok i → i.wellFormed = true →
    step s = exec i { s with hostQueue := rest, cmd := data.extractLsb' 0 32 }

/-- With no host access to come, a step leaves the state as it is (the model's reading of idle, log 2).
When the host queue is empty the step answers the same state. That the machine may be stepped while it is idle is the model's choice, assumption log 2. (derived: 70_reset_and_hazards.md section 1, assumption log 2) -/
def Obligations.IdleStepChangesNothing : Prop :=
  ∀ s : State, s.hostQueue = [] → step s = .next s

/-- A command is refused exactly when it reads IN and a byte of IN[0..IN_LEN) is unwritten; else it ends in a next state.
For every command i and every state: if i reads IN and some byte below IN_LEN has no written mark, exec i refuses with unwrittenInput; in every other case it answers a next state. No command faults or hangs. (That the refused mark is the outcome refused of a step is log 11.) (derived: 20_memory.md section 2, 60_exceptions.md section 4, assumption log 11) -/
def Obligations.EveryCommandEndsOrIsRefusedForUnwrittenInput : Prop :=
  ∀ (i : Instr) (s : State),
    ((readsInput i = true ∧ ∃ a < s.inLen.toNat, s.inBuf.read a = none) → exec i s = .refused .unwrittenInput) ∧
    (¬ (readsInput i = true ∧ ∃ a < s.inLen.toNat, s.inBuf.read a = none) → ∃ t, exec i s = .next t)

/-- A command that raises writes the code of an error kind of its own row to STATUS.ERR and nothing else.
For every command and state, if exec answers next t then either STATUS is 0 in t, or t is the state before with STATUS the code of one of the kinds the command may raise (the last column of the table of error kinds) and every other field unchanged. (stated: R202) -/
def Obligations.ErrorWritesOnlyItsCode : Prop :=
  ∀ (i : Instr) (s t : State), exec i s = .next t →
    t.status = 0 ∨ ∃ e ∈ mayRaise i, t = { s with status := BitVec.ofNat 32 e.code.toNat }

/-- The nine error kinds have the codes 1 to 9 of the table.
The code of each kind is that of the table of error kinds: 1 SizeLimitExceeded to 8 InvalidConfiguration in order, 9 IllegalCommand; raising a kind sets STATUS to its code. (derived: 60_exceptions.md section 1) -/
def Obligations.ErrorCodesAreOneToNine : Prop :=
  [ErrKind.sizeLimitExceeded, .insufficientData, .lengthExceedsLimit, .lengthOverflow, .trailingBytes, .invalidMarker,
    .outOfRange, .invalidConfiguration, .illegalCommand].map (fun e => e.code.toNat) = [1, 2, 3, 4, 5, 6, 7, 8, 9] ∧
  ∀ (e : ErrKind) (s : State), (s.raise e).errCode = e.code.toNat ∧ s.raise e = s.withErr e.code.toNat

/-- A command ends with InvalidMarker only in Variable mode.
If a command answers next t and STATUS.ERR is 6 in t, the mode is Variable. (derived: 60_exceptions.md section 1) -/
def Obligations.InvalidMarkerOnlyInVariableMode : Prop :=
  ∀ (i : Instr) (s t : State), exec i s = .next t → t.errCode = 6 → s.cfg.mode = .variableLen

/-- No command writes CMD, VAL, IN_LEN, IN or a written mark, nor the model's own fields and the parameters (logs 1, 3, 5, 10).
If exec i answers next t, then CMD, VAL, IN_LEN, IN with its written marks, the parameters, the reset count, the host queue and the last reply are as before. The last four are the model's own fields. (derived: 10_state.md section 3, 20_memory.md section 1, assumption log 5) -/
def Obligations.CommandsLeaveTheHostsStateAlone : Prop :=
  ∀ (i : Instr) (s t : State), exec i s = .next t →
    t.cmd = s.cmd ∧ t.val = s.val ∧ t.inLen = s.inLen ∧ t.inBuf = s.inBuf ∧ t.params = s.params ∧
    t.resetEpoch = s.resetEpoch ∧ t.hostQueue = s.hostQueue ∧ t.hostReply = s.hostReply

/-- RES, CNT, and OUT with OUT_LEN are written by the commands listed for them alone.
If exec i answers next t: RES is unchanged unless i is a decode command or ZZ.ENC32 or ZZ.ENC64; CNT is unchanged unless i decodes from IN; OUT (every byte) and OUT_LEN are unchanged unless i is LEB.ENC, LP.ENC, BLOB.SER, BLOB.DES, FX.ENC or a SER command; and CTRL and LIMIT unless i is a CFG command. (derived: 10_state.md section 3) -/
def Obligations.OnlyTheListedCommandsWriteResults : Prop :=
  ∀ (i : Instr) (s t : State), exec i s = .next t →
    (writesRes i = false → t.res = s.res) ∧ (writesCnt i = false → t.cnt = s.cnt) ∧
    (writesOut i = false → t.outLen = s.outLen ∧ t.outBuf = s.outBuf ∧ ∀ a, t.outBuf.read a = s.outBuf.read a) ∧
    (writesConfig i = false → t.ctrl = s.ctrl ∧ t.limit = s.limit)

/-- A step that changes CTRL or LIMIT is a CMD write of a CFG command or the reset event.
If a step answers next t and CTRL or LIMIT differs, then the host access it took was the reset event, or a 32-bit write to CMD whose word decodes to a CFG command. (derived: 10_state.md section 4, 45_config.md section 1, 70_reset_and_hazards.md section 1) -/
def Obligations.OnlyConfigurationCommandsAndResetChangeTheConfiguration : Prop :=
  ∀ s t : State, step s = .next t → (t.ctrl ≠ s.ctrl ∨ t.limit ≠ s.limit) →
    (∃ rest, s.hostQueue = .reset :: rest) ∨
    ∃ data rest i, s.hostQueue = .writeReg 0x00 32 data :: rest ∧ decode (data.extractLsb' 0 32) = .ok i ∧
      writesConfig i = true

/-- Only CFG.BE changes the byte order to BigEndian, and only CFG.STD changes it back.
If a command answers next t and the byte order differs, the command is CFG.BE and the order is BigEndian, or it is CFG.STD and the order is LittleEndian. (derived: 20_memory.md section 3, 45_config.md) -/
def Obligations.OnlyStdAndBeChangeTheByteOrder : Prop :=
  ∀ (i : Instr) (s t : State), exec i s = .next t → t.cfg.byteOrder ≠ s.cfg.byteOrder →
    (i = .cfgBe ∧ t.cfg.byteOrder = .bigEndian) ∨ (i = .cfgStd ∧ t.cfg.byteOrder = .littleEndian)

/-- What a command does depends on CTRL, LIMIT, VAL, IN, IN_LEN and the parameters alone.
Take two states equal in CTRL, LIMIT, VAL, IN_LEN, IN and the parameters, whatever CMD, STATUS, RES, CNT, OUT_LEN, OUT and the model's own fields hold. A command that ends in one ends in the other, with the same STATUS, CTRL and LIMIT; and when it succeeds it leaves the same RES, CNT and OUT_LEN where it writes them, and the same byte at every OUT index below the new OUT_LEN. (derived: 10_state.md section 4, 20_memory.md section 4) -/
def Obligations.CommandResultsDoNotDependOnHiddenState : Prop :=
  ∀ (i : Instr) (s s' t : State), s'.ctrl = s.ctrl → s'.limit = s.limit → s'.val = s.val → s'.inLen = s.inLen →
    s'.inBuf = s.inBuf → s'.params = s.params → exec i s = .next t →
    ∃ t', exec i s' = .next t' ∧ t'.status = t.status ∧
      t'.ctrl = t.ctrl ∧ t'.limit = t.limit ∧
      (t.status = 0 → (writesRes i = true → t'.res = t.res) ∧ (writesCnt i = true → t'.cnt = t.cnt) ∧
        (writesOut i = true → t'.outLen = t.outLen ∧ ∀ a < t.outLen.toNat, t'.outBuf.read a = t.outBuf.read a))

/-- The output of each command is within its bound: LEB.ENC 10, LP.ENC 9, FX.ENC 8, SER 16, BLOB.SER IN_LEN + 9, BLOB.DES IN_LEN.
If a command that writes OUT succeeds, OUT_LEN after it is at most 10 for LEB.ENC, 9 for LP.ENC, 8 for FX.ENC, 16 for the SER commands, IN_LEN + 9 for BLOB.SER and IN_LEN for BLOB.DES. (derived: 20_memory.md section 2) -/
def Obligations.OutputFitsItsBound : Prop :=
  ∀ (i : Instr) (s t : State), exec i s = .next t → t.status = 0 →
    (i = .lebEnc → t.outLen.toNat ≤ 10) ∧ (i = .lpEnc → t.outLen.toNat ≤ 9) ∧ (i = .fxEnc → t.outLen.toNat ≤ 8) ∧
    (i = .serI32 ∨ i = .serU32 ∨ i = .serI64 → t.outLen.toNat ≤ 16) ∧
    (i = .blobSer → t.outLen.toNat ≤ s.inLen.toNat + 9) ∧ (i = .blobDes → t.outLen.toNat ≤ s.inLen.toNat)

/-- Every step keeps the invariant of a legal state.
If a state meets the invariant (legal parameters; STATUS at most 9 and CTRL at most 15, reserved bits 0; IN_LEN and OUT_LEN within the capacities; both buffers in canonical form and within their capacities; every byte of OUT[0..OUT_LEN) written) and a step answers next t, then t meets it. (derived: 00_scope.md section 4, 10_state.md section 3, 20_memory.md section 1, 20_memory.md section 2, 70_reset_and_hazards.md section 1) -/
def Obligations.StepKeepsTheInvariant : Prop :=
  ∀ s t : State, s.Inv → step s = .next t → t.Inv

/-- The state after reset meets the invariant (its parameters are the model's choice, log 6).
State.reset meets the invariant that every step keeps. Its capacities are the model's launch choice, assumption log 6. (derived: 70_reset_and_hazards.md section 1, assumption log 6) -/
def Obligations.ResetMeetsTheInvariant : Prop :=
  State.reset.Inv

/-- CFG.STD loads LittleEndian, Fixed, width 8 and limit 65536, the reset configuration.
The word of CFG.STD is 0x10. From every state it answers the state with CTRL 0xC, LIMIT 65536 and ERR 0, nothing else changed; the configuration is then LittleEndian, Fixed, width 8, limit 65536, that of State.reset. No other command takes the byte order from BigEndian to LittleEndian. (stated: R191) -/
def Obligations.CfgStdLoadsTheDefault : Prop :=
  encode .cfgStd = 0x00000010 ∧
  (∀ s : State, exec .cfgStd s = .next { s with ctrl := 0x0000000C, limit := 65536, status := 0 } ∧
    { s with ctrl := 0x0000000C, limit := 65536, status := 0 : State }.cfg =
      { byteOrder := .littleEndian, mode := .fixed, intWidth := 8, sizeLimit := 65536 }) ∧
  State.reset.cfg = { byteOrder := .littleEndian, mode := .fixed, intWidth := 8, sizeLimit := 65536 } ∧
  State.reset.ctrl = 0x0000000C ∧ State.reset.limit = 65536 ∧
  ∀ (i : Instr) (s t : State), exec i s = .next t → s.cfg.byteOrder = .bigEndian →
    t.cfg.byteOrder = .littleEndian → i = .cfgStd

/-- CFG.BE sets CTRL.BO and nothing else.
The word of CFG.BE is 0x11. From every state it answers the state with CTRL bit 0 set, the other three bits kept and ERR 0; MODE, IW and LIMIT are unchanged, and so is everything else. (stated: R192) -/
def Obligations.CfgBeSetsBigEndian : Prop :=
  encode .cfgBe = 0x00000011 ∧
  ∀ s : State, exec .cfgBe s = .next { s with ctrl := (s.ctrl &&& 0xF) ||| 1, status := 0 } ∧
    { s with ctrl := (s.ctrl &&& 0xF) ||| 1, status := 0 : State }.cfg = { s.cfg with byteOrder := .bigEndian }

/-- CFG.FIXW n selects Fixed mode with width n for n in 1, 2, 4, 8, and raises InvalidConfiguration for every other n (n from 256 up: the model's reading, log 16).
The word of CFG.FIXW n is 0x12 + 256 n for n below 256. For n in 1, 2, 4, 8 it answers the state with MODE Fixed, IW the code of n, BO kept, ERR 0 and nothing else changed. For every other n it answers the state with ERR 8 and nothing else changed. CMD[15:8] gives n from 0 to 255 alone; that the last clause also holds for n from 256 up, which no command word gives, is the model's reading (assumption log 16). (derived: 45_config.md, 30_encoding.md section 1) -/
def Obligations.CfgFixwSelectsFixedOrRaises : Prop :=
  (∀ n < 256, (encode (.cfgFixw n)).toNat = 0x12 + 256 * n) ∧
  (∀ (s : State) (n code : Nat), (n, code) ∈ [(1, 0), (2, 1), (4, 2), (8, 3)] →
    exec (.cfgFixw n) s = .next { s with ctrl := BitVec.ofNat 32 (s.ctrl.toNat % 2 + 4 * code), status := 0 } ∧
    { s with ctrl := BitVec.ofNat 32 (s.ctrl.toNat % 2 + 4 * code), status := 0 : State }.cfg =
      { s.cfg with mode := .fixed, intWidth := n }) ∧
  ∀ (s : State) (n : Nat), n ∉ [1, 2, 4, 8] → exec (.cfgFixw n) s = .next (s.withErr 8)

/-- CFG.VAR sets CTRL.MODE, IW kept, and nothing else; in Variable mode IW has no effect on LP, BLOB, SER and DES commands.
The word of CFG.VAR is 0x13. From every state it answers the state with CTRL bit 1 set, the other three bits kept and ERR 0: the mode is Variable, byte order, width code and limit are kept, and so is everything else. In Variable mode, two states that differ only in the width code of CTRL run LP.ENC, LP.DEC, BLOB.SER, BLOB.DES, the SER and the DES commands to next states that differ only there. (stated: R194) -/
def Obligations.CfgVarSelectsVariable : Prop :=
  encode .cfgVar = 0x00000013 ∧
  (∀ s : State, exec .cfgVar s = .next { s with ctrl := (s.ctrl &&& 0xF) ||| 2, status := 0 } ∧
    { s with ctrl := (s.ctrl &&& 0xF) ||| 2, status := 0 : State }.cfg = { s.cfg with mode := .variableLen }) ∧
  ∀ (s t : State) (c : Half), s.cfg.mode = .variableLen → c.toNat % 4 = s.ctrl.toNat % 4 →
    ∀ i ∈ [Instr.lpEnc, .lpDec, .blobSer, .blobDes, .serI32, .serU32, .serI64, .desI32, .desU32, .desI64],
      exec i s = .next t → exec i { s with ctrl := c } = .next { t with ctrl := c }

/-- CFG.LIMIT sets LIMIT to VAL; with LIMIT 0 every SER and every DES command fails; LIMIT 2^64 - 1 rejects no length.
The word of CFG.LIMIT is 0x14. From every state it answers the state with LIMIT the value of VAL and ERR 0, nothing else changed. With LIMIT 0: BLOB.SER of a non-empty input raises SizeLimitExceeded; every SER command raises SizeLimitExceeded; every DES command on a record whose prefix declares a length above 0 raises LengthExceedsLimit, and on a record that declares 0 and fills its input it raises InsufficientData; no DES command succeeds. With LIMIT 2^64 - 1 neither BLOB.DES nor a DES command raises LengthExceedsLimit. (stated: R195) -/
def Obligations.CfgLimitStoresVal : Prop :=
  encode .cfgLimit = 0x00000014 ∧
  (∀ s : State, exec .cfgLimit s = .next { s with limit := s.val, status := 0 }) ∧
  (∀ (s : State) (bs : List Byte), s.limit = 0 → s.InputIs bs → bs ≠ [] → exec .blobSer s = .next (s.withErr 1)) ∧
  (∀ s : State, s.limit = 0 → ∀ i ∈ [Instr.serI32, .serU32, .serI64], exec i s = .next (s.withErr 1)) ∧
  (∀ (s : State) (wire : List Byte) (len p : Nat), s.limit = 0 → s.InputIs wire → lpDecode wire s.cfg = .ok (len, p) →
    ∀ i ∈ [Instr.desI32, .desU32, .desI64],
      (0 < len → exec i s = .next (s.withErr 3)) ∧
      (len = 0 → wire.length = p → exec i s = .next (s.withErr 2))) ∧
  (∀ s t : State, s.limit = 0 → ∀ i ∈ [Instr.desI32, .desU32, .desI64], exec i s = .next t → t.errCode ≠ 0) ∧
  ∀ s t : State, s.limit.toNat = 2 ^ 64 - 1 → ∀ i ∈ [Instr.blobDes, .desI32, .desU32, .desI64],
    exec i s = .next t → t.errCode ≠ 3

/-- ZZ.ENC32 writes the zigzag number of VAL[31:0] to RES.
The word of ZZ.ENC32 is 0x20. With v the signed value of VAL[31:0], RES becomes 2v if v is not negative, else -2v - 1, and ERR 0; nothing else changes and bits 63:32 of RES are 0. (stated: R146) -/
def Obligations.ZzEnc32MapsTheLowHalf : Prop :=
  encode .zzEnc32 = 0x00000020 ∧
  ∀ s : State,
    let v := (s.val.extractLsb' 0 32).toInt
    let r := BitVec.ofInt 64 (if 0 ≤ v then 2 * v else -2 * v - 1)
    exec .zzEnc32 s = .next { s with res := r, status := 0 } ∧ r.toNat < 2 ^ 32

/-- ZZ.ENC64 writes the zigzag number of VAL to RES.
The word of ZZ.ENC64 is 0x21. With v the signed value of VAL, RES becomes the 64-bit number 2v if v is not negative, else -2v - 1, and ERR 0; nothing else changes. (stated: R147) -/
def Obligations.ZzEnc64MapsVal : Prop :=
  encode .zzEnc64 = 0x00000021 ∧
  ∀ s : State,
    let v := s.val.toInt
    exec .zzEnc64 s = .next { s with res := BitVec.ofInt 64 (if 0 ≤ v then 2 * v else -2 * v - 1), status := 0 } ∧
    0 ≤ (if 0 ≤ v then 2 * v else -2 * v - 1) ∧ (if 0 ≤ v then 2 * v else -2 * v - 1) < 2 ^ 64

/-- ZZ.DEC32 inverts zigzag for VAL up to 0xFFFFFFFF and raises OutOfRange above.
The word of ZZ.DEC32 is 0x30. If VAL is at most 0xFFFFFFFF, RES becomes VAL/2 for an even VAL and -(VAL/2) - 1 for an odd one, sign-extended, and ERR 0; the value is an int32. If VAL is larger, ERR is 7 and nothing else changes. (stated: R149) -/
def Obligations.ZzDec32ChecksTheRange : Prop :=
  encode .zzDec32 = 0x00000030 ∧
  ∀ s : State,
    let u := s.val.toNat
    let v : Int := if u % 2 = 0 then (u / 2 : Nat) else -((u / 2 : Nat) : Int) - 1
    (u ≤ 0xFFFFFFFF → exec .zzDec32 s = .next { s with res := BitVec.ofInt 64 v, status := 0 } ∧
      -2 ^ 31 ≤ v ∧ v ≤ 2 ^ 31 - 1) ∧
    (0xFFFFFFFF < u → exec .zzDec32 s = .next (s.withErr 7))

/-- ZZ.DEC64 writes the inverse zigzag of VAL to RES and never fails.
The word of ZZ.DEC64 is 0x31. RES becomes VAL/2 for an even VAL and -(VAL/2) - 1 for an odd one, as a 64-bit pattern, with ERR 0; nothing else changes. (stated: R150) -/
def Obligations.ZzDec64InvertsZigzag : Prop :=
  encode .zzDec64 = 0x00000031 ∧
  ∀ s : State,
    let u := s.val.toNat
    let v : Int := if u % 2 = 0 then (u / 2 : Nat) else -((u / 2 : Nat) : Int) - 1
    exec .zzDec64 s = .next { s with res := BitVec.ofInt 64 v, status := 0 }

/-- ZZ.DEC64 of the result of ZZ.ENC64 gives VAL back, and ZZ.DEC32 of ZZ.ENC32 gives the int32 back.
If ZZ.ENC64 answers t, then in any state whose VAL is RES of t, ZZ.DEC64 answers RES equal to the first VAL with ERR 0. If ZZ.ENC32 answers t, ZZ.DEC32 in such a state succeeds with RES the sign extension of VAL[31:0]. (derived: 43_varint.md section 1, 43_varint.md section 2) -/
def Obligations.ZigzagRoundTripsOnTheBlock : Prop :=
  (∀ s t s' : State, exec .zzEnc64 s = .next t → s'.val = t.res →
    exec .zzDec64 s' = .next { s' with res := s.val, status := 0 }) ∧
  ∀ s t s' : State, exec .zzEnc32 s = .next t → s'.val = t.res →
    exec .zzDec32 s' = .next { s' with res := (s.val.extractLsb' 0 32).signExtend 64, status := 0 }

/-- LEB.ENC writes the fewest 7-bit groups of VAL, least significant first (the byte layout is the spec's, from general knowledge: G1, log 19).
From every state LEB.ENC answers a next state in which only OUT, OUT_LEN and STATUS (ERR 0) changed. The output has the least length k of at least 1 with VAL below 2^(7k); byte i holds bits 7i+6 to 7i of VAL in bits 6:0, and bit 7 is set in every byte but the last. The layout is the spec's own, from general knowledge (assumption log 19). (derived: 43_varint.md section 1, 43_varint.md section 2, 93_implementation_defined.md section 3) -/
def Obligations.LebEncEmitsTheFewestGroups : Prop :=
  ∀ s : State, ∃ (t : State) (bs : List Byte),
    exec .lebEnc s = .next t ∧ OnlyOutput s t ∧ OutputIs s t bs ∧
    1 ≤ bs.length ∧ s.val.toNat < 2 ^ (7 * bs.length) ∧
    (∀ k, 1 ≤ k → s.val.toNat < 2 ^ (7 * k) → bs.length ≤ k) ∧
    ∀ i < bs.length,
      byteAt bs i = s.val.toNat / 2 ^ (7 * i) % 128 + (if i + 1 < bs.length then 128 else 0)

/-- LEB.DEC: value and length of the first varint; OutOfRange from 2^64 up, and for redundant groups under Reject (layout: G1, log 19).
Let IN hold bs, with bit 7 set in the bytes before index n and clear in byte n, and let u be the sum of the 7-bit groups 0 to n. If u is below 2^64 and the policy is Accept or the form is minimal (n = 0 or byte n is not 0), RES is u, CNT is n + 1, ERR 0 and nothing else changes. If u is below 2^64 and the policy is Reject and the form is not minimal, ERR is 7. If u is 2^64 or more, ERR is 7. (derived: 43_varint.md section 1, 43_varint.md section 2, 93_implementation_defined.md section 3) -/
def Obligations.LebDecReadsOneVarint : Prop :=
  ∀ (s : State) (bs : List Byte) (n : Nat), s.InputIs bs → n < bs.length →
    (∀ j < n, 128 ≤ byteAt bs j) → byteAt bs n < 128 →
    let u := digitSum 128 (fun j => byteAt bs j % 128) (n + 1)
    exec .lebDec s = .next (
      if 2 ^ 64 ≤ u then s.withErr 7
      else if s.params.lebNoncanon = .reject ∧ n ≠ 0 ∧ byteAt bs n = 0 then s.withErr 7
      else { s with res := BitVec.ofNat 64 u, cnt := BitVec.ofNat 64 (n + 1), status := 0 })

/-- LEB.DEC raises InsufficientData when no byte of IN has bit 7 clear, the empty input included (layout: G1, log 19).
If IN holds bs and every byte of bs has bit 7 set (so also if bs is empty), LEB.DEC answers the state with ERR 2 and nothing else changed, whatever the value would be. That bit 7 marks continuation is the spec's own layout, from general knowledge (assumption log 19). (derived: 43_varint.md section 1, 43_varint.md section 2, 93_implementation_defined.md section 3) -/
def Obligations.LebDecUnterminatedIsInsufficientData : Prop :=
  ∀ (s : State) (bs : List Byte), s.InputIs bs → (∀ j < bs.length, 128 ≤ byteAt bs j) →
    exec .lebDec s = .next (s.withErr 2)

/-- LEB.DEC of what LEB.ENC wrote, whatever bytes follow it, gives VAL back with the encoding's length.
For every state s, LEB.ENC answers t with output w, and in every state whose IN holds w followed by any bytes, LEB.DEC succeeds with RES the first VAL and CNT the length of w, under either noncanonical policy. (derived: 43_varint.md section 1, 43_varint.md section 2) -/
def Obligations.LebRoundTripsOnTheBlock : Prop :=
  ∀ s : State, ∃ (t : State) (w : List Byte), exec .lebEnc s = .next t ∧ OutputIs s t w ∧
    ∀ (s' : State) (extra : List Byte), s'.InputIs (w ++ extra) →
      exec .lebDec s' = .next { s' with res := s.val, cnt := BitVec.ofNat 64 w.length, status := 0 }

/-- ZZ.ENC32, SER.I32 and SER.U32 give the same whatever VAL[63:32] holds.
For ZZ.ENC32, SER.I32 and SER.U32: if two states differ only in VAL and agree on VAL[31:0], the command answers next states that differ only in VAL. (stated: R181) -/
def Obligations.UpperHalfOfValIsIgnored : Prop :=
  ∀ i ∈ [Instr.zzEnc32, .serI32, .serU32], ∀ (s : State) (v : Word), v.extractLsb' 0 32 = s.val.extractLsb' 0 32 →
    ∃ t, exec i s = .next t ∧ exec i { s with val := v } = .next { t with val := v }

/-- LP.ENC writes VAL as a length prefix: 8 bytes in CTRL.BO in Fixed mode, the marker scheme in Variable mode.
The word of LP.ENC is 0x40. From every state it answers a next state in which only OUT, OUT_LEN and STATUS (ERR 0) changed. With b i the i-th byte of VAL, low byte first: Fixed gives the eight bytes, in order or reversed by CTRL.BO; Variable gives the byte VAL below 251, 0xfb and two bytes below 2^16, 0xfc and four bytes below 2^32, else 0xfd and eight bytes. (stated: R106) -/
def Obligations.LpEncWritesThePrefix : Prop :=
  encode .lpEnc = 0x00000040 ∧
  ∀ s : State,
    let b := fun i => (BitVec.ofNat 8 (s.val.toNat / 256 ^ i) : Byte)
    let bs : List Byte :=
      match s.cfg.mode, s.cfg.byteOrder with
      | .fixed, .littleEndian => [b 0, b 1, b 2, b 3, b 4, b 5, b 6, b 7]
      | .fixed, .bigEndian => [b 7, b 6, b 5, b 4, b 3, b 2, b 1, b 0]
      | .variableLen, _ =>
        if s.val.toNat < 251 then [b 0]
        else if s.val.toNat < 2 ^ 16 then [0xFB, b 0, b 1]
        else if s.val.toNat < 2 ^ 32 then [0xFC, b 0, b 1, b 2, b 3]
        else [0xFD, b 0, b 1, b 2, b 3, b 4, b 5, b 6, b 7]
    ∃ t, exec .lpEnc s = .next t ∧ OnlyOutput s t ∧ OutputIs s t bs

/-- LP.DEC decodes the prefix at the start of IN, with its errors in order.
The word of LP.DEC is 0x50. Let IN hold bs. Fixed: fewer than 8 bytes give ERR 2, else RES is the number in the first 8 bytes in CTRL.BO and CNT is 8. Variable: no byte gives ERR 2; a first byte m up to 250 gives RES m and CNT 1; 0xff gives ERR 6; a marker with field width k (2, 4, 8, 16) gives ERR 2 if fewer than 1 + k bytes are there, ERR 4 if the little-endian field is 2^64 or more, else RES that number and CNT 1 + k. On success ERR is 0; nothing else ever changes. (stated: R107) -/
def Obligations.LpDecReadsThePrefix : Prop :=
  encode .lpDec = 0x00000050 ∧
  ∀ (s : State) (bs : List Byte), s.InputIs bs →
    let m := byteAt bs 0
    let k := if m = 0xFB then 2 else if m = 0xFC then 4 else if m = 0xFD then 8 else 16
    exec .lpDec s = .next (
      match s.cfg.mode with
      | .fixed =>
        if bs.length < 8 then s.withErr 2
        else { s with res := BitVec.ofNat 64 (numberAt s.cfg.byteOrder bs 0 8), cnt := 8, status := 0 }
      | .variableLen =>
        if bs.length = 0 then s.withErr 2
        else if m ≤ 250 then { s with res := BitVec.ofNat 64 m, cnt := 1, status := 0 }
        else if m = 0xFF then s.withErr 6
        else if bs.length < 1 + k then s.withErr 2
        else if 2 ^ 64 ≤ numberAt .littleEndian bs 1 k then s.withErr 4
        else { s with res := BitVec.ofNat 64 (numberAt .littleEndian bs 1 k), cnt := BitVec.ofNat 64 (1 + k),
                      status := 0 })

/-- A length prefix decodes to its value and its length, whatever bytes follow it.
For every 64-bit length, every configuration and every bytes that follow, lp_decode of lp_encode gives the length and the number of bytes of the prefix. (derived: 41_length_prefix.md section 4) -/
def Obligations.PrefixRoundTrips : Prop :=
  ∀ (len : Nat) (cfg : Cfg) (extra : List Byte), len < 2 ^ 64 →
    lpDecode (lpEncode len cfg ++ extra) cfg = .ok (len, (lpEncode len cfg).length)

/-- BLOB.SER writes the prefix of IN_LEN and then the bytes of IN, or raises SizeLimitExceeded above LIMIT.
The word of BLOB.SER is 0x41. Let IN hold d. If d is longer than LIMIT, ERR is 1 and nothing else changes. Else only OUT, OUT_LEN and STATUS (ERR 0) change, and the output is the length prefix of the length of d followed by d. (stated: R108) -/
def Obligations.BlobSerFramesTheInput : Prop :=
  encode .blobSer = 0x00000041 ∧
  ∀ (s : State) (d : List Byte), s.InputIs d →
    (s.limit.toNat < d.length → exec .blobSer s = .next (s.withErr 1)) ∧
    (d.length ≤ s.limit.toNat → ∃ t, exec .blobSer s = .next t ∧ OnlyOutput s t ∧
      OutputIs s t (lpEncode d.length s.cfg ++ d))

/-- BLOB.DES runs its checks in order and copies the payload of a record that fills IN.
The word of BLOB.DES is 0x51. Let IN hold wire. An empty wire gives ERR 2; an error of lp_decode gives its code. With declared length len and prefix p: above LIMIT gives ERR 3, then above HOST_SIZE_MAX ERR 4, then a short wire ERR 2, then a longer wire ERR 5; nothing but STATUS changes. Else the payload bytes go to OUT, RES is len, CNT is IN_LEN and ERR 0, nothing else changing. (stated: R109) -/
def Obligations.BlobDesChecksAndUnframes : Prop :=
  encode .blobDes = 0x00000051 ∧
  ∀ (s : State) (wire : List Byte), s.InputIs wire →
    (wire = [] → exec .blobDes s = .next (s.withErr 2)) ∧
    (∀ e, wire ≠ [] → lpDecode wire s.cfg = .error e → exec .blobDes s = .next (s.withErr e.code.toNat)) ∧
    ∀ len p, wire ≠ [] → lpDecode wire s.cfg = .ok (len, p) →
      if s.limit.toNat < len then exec .blobDes s = .next (s.withErr 3)
      else if s.params.hostSizeMax < len then exec .blobDes s = .next (s.withErr 4)
      else if wire.length < p + len then exec .blobDes s = .next (s.withErr 2)
      else if wire.length ≠ p + len then exec .blobDes s = .next (s.withErr 5)
      else ∃ (t : State) (d : List Byte), exec .blobDes s = .next t ∧ d.length = len ∧
        (∀ j < len, d[j]? = wire[p + j]?) ∧ OutputIs s t d ∧
        t = { s with outBuf := t.outBuf, outLen := t.outLen, res := BitVec.ofNat 64 len, cnt := s.inLen, status := 0 }

/-- BLOB.DES of what BLOB.SER wrote, under the same configuration, gives the bytes back.
Let IN hold d, no longer than LIMIT and HOST_SIZE_MAX. BLOB.SER succeeds with output w of length d plus its prefix, and in every state with the same CTRL, LIMIT and parameters whose IN holds w, BLOB.DES succeeds: the output is d, RES is the length of d and CNT the length of w. (derived: 41_length_prefix.md section 4) -/
def Obligations.BlobRoundTripsOnTheBlock : Prop :=
  ∀ (s : State) (d : List Byte), s.InputIs d → d.length ≤ s.limit.toNat → d.length ≤ s.params.hostSizeMax →
    ∃ (t : State) (w : List Byte), exec .blobSer s = .next t ∧ t.status = 0 ∧ OutputIs s t w ∧
      w.length = d.length + (lpEncode d.length s.cfg).length ∧
      ∀ s' : State, s'.ctrl = s.ctrl → s'.limit = s.limit → s'.params = s.params → s'.InputIs w →
        ∃ t', exec .blobDes s' = .next t' ∧ t'.status = 0 ∧ OutputIs s' t' d ∧
          t'.res = BitVec.ofNat 64 d.length ∧ t'.cnt = BitVec.ofNat 64 w.length

/-- FX.ENC writes the low intWidth bytes of VAL in CTRL.BO, whatever the mode.
The word of FX.ENC is 0x60. From every state it answers a next state in which only OUT, OUT_LEN and STATUS (ERR 0) changed; the output has intWidth bytes, and byte i is byte i of VAL for LittleEndian and byte intWidth - 1 - i for BigEndian. (stated: R123) -/
def Obligations.FxEncEmitsTheLowBytes : Prop :=
  encode .fxEnc = 0x00000060 ∧
  ∀ s : State, ∃ (t : State) (bs : List Byte), exec .fxEnc s = .next t ∧ OnlyOutput s t ∧ OutputIs s t bs ∧
    bs.length = s.cfg.intWidth ∧
    ∀ i < bs.length, byteAt bs i = s.val.toNat / 256 ^ (match s.cfg.byteOrder with
      | .littleEndian => i
      | .bigEndian => s.cfg.intWidth - 1 - i) % 256

/-- FX.DECS reads the first intWidth bytes of IN as a signed number, or raises InsufficientData.
The word of FX.DECS is 0x61. Let IN hold bs and n be intWidth. Fewer than n bytes give ERR 2. Else RES is the sign extension of the 8n-bit number in the first n bytes in CTRL.BO, CNT is n and ERR 0. Nothing else changes. (stated: R124) -/
def Obligations.FxDecsReconstructsSigned : Prop :=
  encode .fxDecs = 0x00000061 ∧
  ∀ (s : State) (bs : List Byte), s.InputIs bs →
    exec .fxDecs s = .next (
      if bs.length < s.cfg.intWidth then s.withErr 2
      else { s with
        res := BitVec.ofInt 64 (Int.bmod (numberAt s.cfg.byteOrder bs 0 s.cfg.intWidth) (256 ^ s.cfg.intWidth)),
        cnt := BitVec.ofNat 64 s.cfg.intWidth, status := 0 })

/-- FX.DECU reads the first intWidth bytes of IN as an unsigned number, or raises InsufficientData.
The word of FX.DECU is 0x62. Let IN hold bs and n be intWidth. Fewer than n bytes give ERR 2. Else RES is the number in the first n bytes in CTRL.BO, below 2^(8n), CNT is n and ERR 0. Nothing else changes. (stated: R125) -/
def Obligations.FxDecuReconstructsUnsigned : Prop :=
  encode .fxDecu = 0x00000062 ∧
  ∀ (s : State) (bs : List Byte), s.InputIs bs →
    numberAt s.cfg.byteOrder bs 0 s.cfg.intWidth < 256 ^ s.cfg.intWidth ∧
    exec .fxDecu s = .next (
      if bs.length < s.cfg.intWidth then s.withErr 2
      else { s with res := BitVec.ofNat 64 (numberAt s.cfg.byteOrder bs 0 s.cfg.intWidth),
                    cnt := BitVec.ofNat 64 s.cfg.intWidth, status := 0 })

/-- Reconstructing emitted bytes gives the low 8n bits extended, and BigEndian bytes are the LittleEndian ones reversed.
For every 64-bit v, n in 1, 2, 4, 8 and byte order: the big-endian bytes are the little-endian ones reversed; reconstructing the emitted bytes signed gives the sign extension of the low 8n bits of v, which is v exactly when the signed v fits n bytes; unsigned it gives v mod 2^(8n). (derived: 42_byte_order.md section 1) -/
def Obligations.FixedBytesRoundTrip : Prop :=
  ∀ (v : Word) (n : Nat) (bo : ByteOrder), n ∈ [1, 2, 4, 8] →
    emitFixed v n .bigEndian = (emitFixed v n .littleEndian).reverse ∧
    reconstruct (emitFixed v n bo) bo true = BitVec.ofInt 64 (Int.bmod v.toNat (256 ^ n)) ∧
    (reconstruct (emitFixed v n bo) bo true = v ↔ -2 ^ (8 * n - 1) ≤ v.toInt ∧ v.toInt ≤ 2 ^ (8 * n - 1) - 1) ∧
    reconstruct (emitFixed v n bo) bo false = BitVec.ofNat 64 (v.toNat % 256 ^ n) ∧
    (reconstruct (emitFixed v n bo) bo false = v ↔ v.toNat < 256 ^ n)

/-- SER.I32, SER.U32 and SER.I64 write the framed payload of VAL, or raise SizeLimitExceeded.
The words are 0x70, 0x71, 0x72. The payload is: Fixed, the low intWidth bytes of the 64-bit extension of the operand (sign-extended VAL[31:0], zero-extended VAL[31:0], VAL) in CTRL.BO; Variable, the LEB128 bytes of its zigzag number for I32 and I64 and of the number itself for U32, as leb128_encode gives them. If the payload is longer than LIMIT, ERR is 1 and nothing else changes. Else only OUT, OUT_LEN and STATUS (ERR 0) change and the output is the prefix of the payload length and the payload. (stated: R174, R175, R176) -/
def Obligations.SerCommandsWriteARecord : Prop :=
  encode .serI32 = 0x00000070 ∧ encode .serU32 = 0x00000071 ∧ encode .serI64 = 0x00000072 ∧
  ∀ s : State,
    let low := s.val.extractLsb' 0 32
    let payload := fun (w : Word) (u : Nat) =>
      match s.cfg.mode with
      | .fixed => emitFixed w s.cfg.intWidth s.cfg.byteOrder
      | .variableLen => leb128Encode u
    ∀ x ∈ [(Instr.serI32, payload (low.signExtend 64) (zz low.toInt)), (.serU32, payload (low.zeroExtend 64) low.toNat),
        (.serI64, payload s.val (zz s.val.toInt))],
      (s.limit.toNat < x.2.length → exec x.1 s = .next (s.withErr 1)) ∧
      (x.2.length ≤ s.limit.toNat → ∃ t, exec x.1 s = .next t ∧ OnlyOutput s t ∧
        OutputIs s t (lpEncode x.2.length s.cfg ++ x.2))

/-- A DES command ends with the error of the blob checks, unchanged.
Let IN hold wire and blob_deserialize of it raise e. Then DES.I32, DES.U32 and DES.I64 answer the state with ERR the code of e and nothing else changed. (derived: 60_exceptions.md section 2, 44_integer.md section 2) -/
def Obligations.DesCommandsPropagateBlobErrors : Prop :=
  ∀ i ∈ [Instr.desI32, .desU32, .desI64], ∀ (s : State) (wire : List Byte) (e : ErrKind), s.InputIs wire →
    blobDeserialize wire s.cfg s.params.hostSizeMax = .error e → exec i s = .next (s.withErr e.code.toNat)

/-- DES commands in Fixed mode: the first intWidth payload bytes, extended and narrowed, with the checks in order.
In Fixed mode, let IN hold a record with payload p and n be intWidth. A payload shorter than n gives ERR 2; a longer one gives ERR 5 under P_INT_EXCESS = Reject. Let w be the number in the first n bytes in CTRL.BO, read as signed for I32 and I64. For a 32-bit target, a w outside its range gives ERR 7 under P_NARROW = Reject. Else RES is w, wrapped to the 32-bit target where there is one and extended, CNT is IN_LEN, ERR 0, and nothing else changes. (derived: 44_integer.md section 1, 44_integer.md section 2, 42_byte_order.md section 1) -/
def Obligations.DesFixedReadsTheFirstBytes : Prop :=
  ∀ x ∈ [(Instr.desI32, 32, true), (.desU32, 32, false), (.desI64, 64, true)],
  ∀ (s : State) (wire p : List Byte) (len : Nat), s.InputIs wire → s.cfg.mode = .fixed →
    blobDeserialize wire s.cfg s.params.hostSizeMax = .ok (p, len) →
    let n := s.cfg.intWidth
    let v := numberAt s.cfg.byteOrder p 0 n
    let w : Int := if x.2.2 = true then Int.bmod v (256 ^ n) else v
    let fits := if x.2.2 = true then -2 ^ 31 ≤ w ∧ w < 2 ^ 31 else w < 2 ^ 32
    exec x.1 s = .next (
      if p.length < n then s.withErr 2
      else if n < p.length ∧ s.params.intExcess = .reject then s.withErr 5
      else if s.params.narrow = .reject ∧ x.2.1 = 32 ∧ ¬ fits then s.withErr 7
      else { s with
        res := BitVec.ofInt 64 (if x.2.1 = 64 then w else if x.2.2 = true then Int.bmod w (2 ^ 32) else w % 2 ^ 32),
        cnt := s.inLen, status := 0 })

/-- DES commands in Variable mode: the payload's varint, zigzag undone for signed targets, range-checked for 32-bit ones.
In Variable mode, let IN hold a record with payload p. An error of leb128_decode on p gives its code. With value u and c bytes read: bytes left over give ERR 5 under P_INT_EXCESS = Reject; for DES.I32 and DES.U32 a u of 2^32 or more gives ERR 7. Else RES is u for U32, and u/2 or -(u/2) - 1 by u even or odd for I32 and I64, as a 64-bit pattern; CNT is IN_LEN, ERR 0, and nothing else changes. (derived: 44_integer.md section 1, 44_integer.md section 2, 43_varint.md section 1) -/
def Obligations.DesVariableReadsAVarint : Prop :=
  ∀ x ∈ [(Instr.desI32, 32, true), (.desU32, 32, false), (.desI64, 64, true)],
  ∀ (s : State) (wire p : List Byte) (len : Nat), s.InputIs wire → s.cfg.mode = .variableLen →
    blobDeserialize wire s.cfg s.params.hostSizeMax = .ok (p, len) →
    (∀ e, leb128Decode s.params.lebNoncanon p = .error e → exec x.1 s = .next (s.withErr e.code.toNat)) ∧
    ∀ u c, leb128Decode s.params.lebNoncanon p = .ok (u, c) →
      let v : Int := if x.2.2 = false then u else if u % 2 = 0 then (u / 2 : Nat) else -((u / 2 : Nat) : Int) - 1
      exec x.1 s = .next (
        if c < p.length ∧ s.params.intExcess = .reject then s.withErr 5
        else if x.2.1 = 32 ∧ 2 ^ 32 ≤ u then s.withErr 7
        else { s with res := BitVec.ofInt 64 v, cnt := s.inLen, status := 0 })

/-- A DES command on what the SER command of its type wrote gives the value back, truncated to intWidth bytes in Fixed mode.
Let x be VAL[31:0] signed for I32, VAL[31:0] unsigned for U32, VAL signed for I64. Let HOST_SIZE_MAX be at least 10, the longest payload of an integer. If SER succeeds, with output w, then in every state with the same CTRL, LIMIT and parameters whose IN holds w, DES of the same type succeeds with CNT the length of w and RES: in Variable mode x; in Fixed mode with width n the low 8n bits of x, sign-extended for I32 and I64 and zero-extended for U32. This holds under every value of the policies. (derived: 44_integer.md section 3) -/
def Obligations.IntegerRecordsRoundTripOnTheBlock : Prop :=
  ∀ (s t : State) (i j : Instr) (x : Int) (signed : Bool),
    (i, j, x, signed) ∈ [(.serI32, .desI32, (s.val.extractLsb' 0 32).toInt, true),
      (.serU32, .desU32, ((s.val.extractLsb' 0 32).toNat : Int), false), (.serI64, .desI64, s.val.toInt, true)] →
    10 ≤ s.params.hostSizeMax → exec i s = .next t → t.status = 0 →
    ∃ w : List Byte, OutputIs s t w ∧
      ∀ s' : State, s'.ctrl = s.ctrl → s'.limit = s.limit → s'.params = s.params → s'.InputIs w →
        exec j s' = .next { s' with
          res := BitVec.ofInt 64 (match s.cfg.mode with
            | .variableLen => x
            | .fixed => if signed then Int.bmod x (256 ^ s.cfg.intWidth) else x % 256 ^ s.cfg.intWidth),
          cnt := BitVec.ofNat 64 w.length, status := 0 }

/-- The record of an integer in Fixed mode differs from its record in Variable mode.
For each SER command and every state in Fixed mode: if the command succeeds there and in the same state with CTRL.MODE set, which is in Variable mode, the two outputs differ. (derived: 44_integer.md section 3) -/
def Obligations.RecordsAreModeSensitive : Prop :=
  ∀ i ∈ [Instr.serI32, .serU32, .serI64], ∀ s t t' : State, s.cfg.mode = .fixed →
    exec i s = .next t → t.status = 0 → exec i { s with ctrl := s.ctrl ||| 2 } = .next t' → t'.status = 0 →
    { s with ctrl := s.ctrl ||| 2 : State }.cfg.mode = .variableLen ∧
    ∃ w w' : List Byte, OutputIs s t w ∧ OutputIs { s with ctrl := s.ctrl ||| 2 } t' w' ∧ w ≠ w'

/-- After reset every register holds its value of the reset table.
In State.reset CMD, STATUS, VAL, RES, CNT, IN_LEN and OUT_LEN are 0, CTRL is 0xC (LittleEndian, Fixed, width 8), LIMIT is 65536, STATUS and CTRL have their reserved bits 0, a read of 0x0C gives 0, and so does every read of a reserved offset that is answered. The configuration equals the one CFG.STD loads. (stated: R231) -/
def Obligations.ResetLoadsTheResetValues : Prop :=
  State.reset.cmd = 0 ∧ State.reset.status = 0 ∧ State.reset.errCode = 0 ∧ State.reset.ctrl = 0x0000000C ∧
  State.reset.limit = 65536 ∧ State.reset.val = 0 ∧ State.reset.res = 0 ∧ State.reset.cnt = 0 ∧
  State.reset.inLen = 0 ∧ State.reset.outLen = 0 ∧
  State.reset.cfg = { byteOrder := .littleEndian, mode := .fixed, intWidth := 8, sizeLimit := 65536 } ∧
  (∀ s t : State, exec .cfgStd s = .next t → t.cfg = State.reset.cfg) ∧
  step { State.reset with hostQueue := [.readReg 0x0C 32] } = .next { State.reset with hostReply := some 0 } ∧
  ∀ (offset bits : Nat) (t : State), offset = 0x0C ∨ 0x40 ≤ offset →
    step { State.reset with hostQueue := [.readReg offset bits] } = .next t → t.hostReply = some 0

/-- The reset event loads every reset value and clears every written mark (what lies outside the block is kept: log 13).
When the next host access is reset, the step answers the state with every register at its reset value, nothing listed in IN or OUT, the reset count one up, and the parameters, the rest of the queue and the last reply kept (the model's own fields, log 13). A command that decodes from IN straight after it raises InsufficientData, and BLOB.SER succeeds. (derived: 70_reset_and_hazards.md section 1, assumption log 13) -/
def Obligations.ResetEventRestoresTheBlock : Prop :=
  ∀ (s : State) (rest : List HostAccess), s.hostQueue = .reset :: rest →
    ∃ t, step s = .next t ∧
      t = { State.reset with params := s.params, resetEpoch := s.resetEpoch + 1, hostQueue := rest, hostReply := s.hostReply } ∧
      (∀ a, t.inBuf.read a = none ∧ t.outBuf.read a = none) ∧
      (∀ i ∈ [Instr.lebDec, .lpDec, .blobDes, .fxDecs, .fxDecu, .desI32, .desU32, .desI64],
        exec i t = .next (t.withErr 2)) ∧
      ∃ u, exec .blobSer t = .next u ∧ OutputIs t u [0, 0, 0, 0, 0, 0, 0, 0]

/-- A whole-register read returns the register, reserved fields of STATUS and CTRL reading 0.
For each register, a read at its own offset with its own width answers the state with only the queue advanced and the reply set: CMD and the 64-bit registers as they are, the low four bits of STATUS and CTRL; reads of 0x0C and of 0x40 up return 0 (in which widths a reserved offset is read is the model's reading, log 14). (derived: 10_state.md section 2, 10_state.md section 3, 10_state.md section 4, assumption log 14) -/
def Obligations.HostReadsEachRegister : Prop :=
  ∀ (s : State) (rest : List HostAccess),
    (∀ x ∈ [(0x00, 32, s.cmd.toNat), (0x04, 32, s.status.toNat % 16), (0x08, 32, s.ctrl.toNat % 16),
        (0x10, 64, s.limit.toNat), (0x18, 64, s.val.toNat), (0x20, 64, s.res.toNat), (0x28, 64, s.cnt.toNat),
        (0x30, 64, s.inLen.toNat), (0x38, 64, s.outLen.toNat), (0x0C, 32, 0)],
      s.hostQueue = .readReg x.1 x.2.1 :: rest →
        step s = .next { s with hostQueue := rest, hostReply := some (BitVec.ofNat 64 x.2.2) }) ∧
    ∀ offset bits, 0x40 ≤ offset → bits = 32 ∨ bits = 64 → s.hostQueue = .readReg offset bits :: rest →
      step s = .next { s with hostQueue := rest, hostReply := some 0 }

/-- A host write of VAL stores it, one of IN_LEN stores it up to IN_CAP and is refused above, one of a read-only or reserved register does nothing.
A 64-bit write at 0x18 stores VAL. One at 0x30 stores IN_LEN if the value is at most IN_CAP and is refused if it is larger. A write of STATUS, CTRL, LIMIT, RES, CNT or OUT_LEN at its own offset and width, and of 0x0C or an offset from 0x40 up (in the widths of log 14), changes nothing but the queue. (The refusal is an outcome of the step: log 11.) (derived: 10_state.md section 3, 10_state.md section 4, assumption log 11, assumption log 14) -/
def Obligations.HostWritesOnlyCmdValAndInLen : Prop :=
  ∀ (s : State) (rest : List HostAccess) (v : Word),
    (s.hostQueue = .writeReg 0x18 64 v :: rest → step s = .next { s with hostQueue := rest, val := v }) ∧
    (s.hostQueue = .writeReg 0x30 64 v :: rest → v.toNat ≤ s.params.inCap →
      step s = .next { s with hostQueue := rest, inLen := v }) ∧
    (s.hostQueue = .writeReg 0x30 64 v :: rest → s.params.inCap < v.toNat → step s = .refused .inLenAboveCapacity) ∧
    (∀ x ∈ [(0x04, 32), (0x08, 32), (0x0C, 32), (0x10, 64), (0x20, 64), (0x28, 64), (0x38, 64)],
      s.hostQueue = .writeReg x.1 x.2 v :: rest → step s = .next { s with hostQueue := rest }) ∧
    ∀ offset bits, 0x40 ≤ offset → bits = 32 ∨ bits = 64 → s.hostQueue = .writeReg offset bits v :: rest →
      step s = .next { s with hostQueue := rest }

/-- A register access below 0x40 that is not a whole register at its own offset is refused.
For every offset below 0x40 and every width that together are none of the ten pairs of the register map (the reserved word 0x0C included), a read and a write are refused with registerAccess. That the reserved word 0x0C is accessed with 32 bits alone is the model's reading, log 14; the refusal is an outcome of the step, log 11. (derived: 10_state.md section 4, 20_memory.md section 4, assumption log 11, assumption log 14) -/
def Obligations.PartialRegisterAccessIsRefused : Prop :=
  ∀ (s : State) (rest : List HostAccess) (offset bits : Nat) (v : Word), offset < 0x40 →
    (offset, bits) ∉ [(0x00, 32), (0x04, 32), (0x08, 32), (0x0C, 32), (0x10, 64), (0x18, 64), (0x20, 64), (0x28, 64),
      (0x30, 64), (0x38, 64)] →
    (s.hostQueue = .readReg offset bits :: rest ∨ s.hostQueue = .writeReg offset bits v :: rest) →
    step s = .refused .registerAccess

/-- Host accesses of IN and OUT: a write of IN stores the byte and sets its mark, a read returns the byte, out of range is refused.
Below IN_CAP a write of IN[a] makes a read as the byte, marked written, every other byte and every other field as before; a read of a written IN[a] returns it. Below OUT_CAP a read of a written OUT[a] returns it, and a write of OUT[a] changes nothing. At or above the capacity each is refused (for a write of OUT that is the model's reading, assumption log 30; the refusal is an outcome of the step, log 11). (derived: 20_memory.md section 1, 70_reset_and_hazards.md section 2, assumption log 30) -/
def Obligations.HostBufferAccesses : Prop :=
  ∀ (s : State) (rest : List HostAccess) (a : Nat) (b : Byte),
    (s.hostQueue = .writeIn a b :: rest →
      if a < s.params.inCap then ∃ m, step s = .next { s with hostQueue := rest, inBuf := m } ∧
        ∀ c, Memory.read m c = if c = a then some b else s.inBuf.read c
      else step s = .refused .bufferRange) ∧
    (s.hostQueue = .readIn a :: rest →
      if a < s.params.inCap then s.inBuf.read a = some b →
        step s = .next { s with hostQueue := rest, hostReply := some (BitVec.ofNat 64 b.toNat) }
      else step s = .refused .bufferRange) ∧
    (s.hostQueue = .readOut a :: rest →
      if a < s.params.outCap then s.outBuf.read a = some b →
        step s = .next { s with hostQueue := rest, hostReply := some (BitVec.ofNat 64 b.toNat) }
      else step s = .refused .bufferRange) ∧
    (s.hostQueue = .writeOut a b :: rest →
      if a < s.params.outCap then step s = .next { s with hostQueue := rest } else step s = .refused .bufferRange)

/-- A host read changes nothing but the queue and the reply, and a second one at once returns the same data.
If the next two host accesses are the same read of a register or of a byte of IN or OUT, written or not, and the first step answers next t, then t differs from the state before only in the queue and the reply, and the second step answers t with only the queue advanced. For a byte nothing has written since reset the data is a free value, the same each time. (derived: 20_memory.md section 4) -/
def Obligations.ReadsHaveNoSideEffectAndRepeat : Prop :=
  ∀ (s t : State) (x : HostAccess) (rest : List HostAccess),
    ((∃ offset bits, x = .readReg offset bits) ∨ (∃ a, x = .readIn a) ∨ (∃ a, x = .readOut a)) →
    s.hostQueue = x :: x :: rest → step s = .next t →
    t = { s with hostQueue := x :: rest, hostReply := t.hostReply } ∧ step t = .next { t with hostQueue := rest }

/-- FIXED n, VARIABLE, LIMIT n and BIG expand to their command lines, and running them leaves the configuration they name (LIMIT n from 2^64 up: log 33).
The accesses of FIXED n are those of CFG.STD and CFG.FIXW n in order, of VARIABLE those of CFG.STD and CFG.VAR, of LIMIT n a write of VAL and CFG.LIMIT, of BIG those of CFG.BE. From every state with the accesses of FIXED n as its queue, n in 1, 2, 4, 8, two steps leave the configuration LittleEndian, Fixed, n, 65536 with ERR 0; those of VARIABLE leave LittleEndian, Variable, 8, 65536; those of LIMIT n leave n in VAL and n as the limit, both modulo 2^64, the rest of the configuration kept; and one step with that of BIG leaves the configuration with BigEndian. That LIMIT n with n from 2^64 up writes n modulo 2^64 is the model's choice (assumption log 33). (derived: 30_encoding.md section 5, 45_config.md) -/
def Obligations.PseudoInstructionsExpand : Prop :=
  (∀ (s : State) (n : Nat), asmAccesses (.fixedWidth n) s =
      asmAccesses (.command .cfgStd) s ++ asmAccesses (.command (.cfgFixw n)) s ∧
    asmAccesses (.limitTo n) s = asmAccesses (.setVal n) s ++ asmAccesses (.command .cfgLimit) s) ∧
  (∀ s : State, asmAccesses .variableMode s = asmAccesses (.command .cfgStd) s ++ asmAccesses (.command .cfgVar) s ∧
    asmAccesses .big s = asmAccesses (.command .cfgBe) s) ∧
  (∀ (s : State) (n : Nat), n ∈ [1, 2, 4, 8] → s.hostQueue = asmAccesses (.fixedWidth n) s →
    ∃ t u, step s = .next t ∧ step t = .next u ∧ u.status = 0 ∧
      u.cfg = { byteOrder := .littleEndian, mode := .fixed, intWidth := n, sizeLimit := 65536 }) ∧
  (∀ s : State, s.hostQueue = asmAccesses .variableMode s →
    ∃ t u, step s = .next t ∧ step t = .next u ∧ u.status = 0 ∧
      u.cfg = { byteOrder := .littleEndian, mode := .variableLen, intWidth := 8, sizeLimit := 65536 }) ∧
  (∀ (s : State) (n : Nat), s.hostQueue = asmAccesses (.limitTo n) s →
    ∃ t u, step s = .next t ∧ step t = .next u ∧ u.status = 0 ∧ u.val = BitVec.ofNat 64 n ∧
      u.cfg = { s.cfg with sizeLimit := n % 2 ^ 64 }) ∧
  ∀ s : State, s.hostQueue = asmAccesses .big s →
    ∃ t, step s = .next t ∧ t.status = 0 ∧ t.cfg = { s.cfg with byteOrder := .bigEndian }

/-- In a state that meets the invariant the observation holds every byte of OUT[0..OUT_LEN).
In every state that meets the invariant the observation has an output sequence; its length is OUT_LEN and each of its bytes is the byte OUT holds at its index. RES, CNT and the other observed registers are the registers themselves, STATUS and CTRL as the host reads them. (derived: 70_reset_and_hazards.md section 5, 20_memory.md section 2) -/
def Obligations.ObservationHoldsTheOutput : Prop :=
  ∀ s : State, s.Inv → ∃ bs : List Byte, s.observe.out = some bs ∧ bs.length = s.outLen.toNat ∧
    (∀ a < bs.length, s.outBuf.read a = bs[a]?) ∧
    (s.observe.status = s.status ∧ s.observe.ctrl = s.ctrl ∧ s.observe.limit = s.limit ∧ s.observe.val = s.val ∧
      s.observe.res = s.res ∧ s.observe.cnt = s.cnt ∧ s.observe.inLen = s.inLen ∧ s.observe.outLen = s.outLen)
end

