-- ==== Sys2Proof/Laws/State.lean ====
section
/-! SUPPORT. One lemma per field per update of the state, true by rfl, so that no proof unfolds a record update. -/

namespace Sys2Proof.Machine

@[simp] theorem State.setErr_cmd (s : State) (c : BitVec 4) : (s.setErr c).cmd = s.cmd := rfl
@[simp] theorem State.setErr_status (s : State) (c : BitVec 4) : (s.setErr c).status = statusOfCode c := rfl
@[simp] theorem State.setErr_ctrl (s : State) (c : BitVec 4) : (s.setErr c).ctrl = s.ctrl := rfl
@[simp] theorem State.setErr_limit (s : State) (c : BitVec 4) : (s.setErr c).limit = s.limit := rfl
@[simp] theorem State.setErr_val (s : State) (c : BitVec 4) : (s.setErr c).val = s.val := rfl
@[simp] theorem State.setErr_res (s : State) (c : BitVec 4) : (s.setErr c).res = s.res := rfl
@[simp] theorem State.setErr_cnt (s : State) (c : BitVec 4) : (s.setErr c).cnt = s.cnt := rfl
@[simp] theorem State.setErr_inLen (s : State) (c : BitVec 4) : (s.setErr c).inLen = s.inLen := rfl
@[simp] theorem State.setErr_outLen (s : State) (c : BitVec 4) : (s.setErr c).outLen = s.outLen := rfl
@[simp] theorem State.setErr_inBuf (s : State) (c : BitVec 4) : (s.setErr c).inBuf = s.inBuf := rfl
@[simp] theorem State.setErr_outBuf (s : State) (c : BitVec 4) : (s.setErr c).outBuf = s.outBuf := rfl
@[simp] theorem State.setErr_params (s : State) (c : BitVec 4) : (s.setErr c).params = s.params := rfl
@[simp] theorem State.setErr_resetEpoch (s : State) (c : BitVec 4) : (s.setErr c).resetEpoch = s.resetEpoch := rfl
@[simp] theorem State.setErr_hostQueue (s : State) (c : BitVec 4) : (s.setErr c).hostQueue = s.hostQueue := rfl
@[simp] theorem State.setErr_hostReply (s : State) (c : BitVec 4) : (s.setErr c).hostReply = s.hostReply := rfl

@[simp] theorem State.raise_cmd (s : State) (e : ErrKind) : (s.raise e).cmd = s.cmd := rfl
@[simp] theorem State.raise_status (s : State) (e : ErrKind) : (s.raise e).status = statusOfCode e.code := rfl
@[simp] theorem State.raise_ctrl (s : State) (e : ErrKind) : (s.raise e).ctrl = s.ctrl := rfl
@[simp] theorem State.raise_limit (s : State) (e : ErrKind) : (s.raise e).limit = s.limit := rfl
@[simp] theorem State.raise_val (s : State) (e : ErrKind) : (s.raise e).val = s.val := rfl
@[simp] theorem State.raise_res (s : State) (e : ErrKind) : (s.raise e).res = s.res := rfl
@[simp] theorem State.raise_cnt (s : State) (e : ErrKind) : (s.raise e).cnt = s.cnt := rfl
@[simp] theorem State.raise_inLen (s : State) (e : ErrKind) : (s.raise e).inLen = s.inLen := rfl
@[simp] theorem State.raise_outLen (s : State) (e : ErrKind) : (s.raise e).outLen = s.outLen := rfl
@[simp] theorem State.raise_inBuf (s : State) (e : ErrKind) : (s.raise e).inBuf = s.inBuf := rfl
@[simp] theorem State.raise_outBuf (s : State) (e : ErrKind) : (s.raise e).outBuf = s.outBuf := rfl
@[simp] theorem State.raise_params (s : State) (e : ErrKind) : (s.raise e).params = s.params := rfl
@[simp] theorem State.raise_resetEpoch (s : State) (e : ErrKind) : (s.raise e).resetEpoch = s.resetEpoch := rfl
@[simp] theorem State.raise_hostQueue (s : State) (e : ErrKind) : (s.raise e).hostQueue = s.hostQueue := rfl
@[simp] theorem State.raise_hostReply (s : State) (e : ErrKind) : (s.raise e).hostReply = s.hostReply := rfl

@[simp] theorem State.succeed_cmd (s : State) : (s.succeed).cmd = s.cmd := rfl
@[simp] theorem State.succeed_status (s : State) : (s.succeed).status = 0 := rfl
@[simp] theorem State.succeed_ctrl (s : State) : (s.succeed).ctrl = s.ctrl := rfl
@[simp] theorem State.succeed_limit (s : State) : (s.succeed).limit = s.limit := rfl
@[simp] theorem State.succeed_val (s : State) : (s.succeed).val = s.val := rfl
@[simp] theorem State.succeed_res (s : State) : (s.succeed).res = s.res := rfl
@[simp] theorem State.succeed_cnt (s : State) : (s.succeed).cnt = s.cnt := rfl
@[simp] theorem State.succeed_inLen (s : State) : (s.succeed).inLen = s.inLen := rfl
@[simp] theorem State.succeed_outLen (s : State) : (s.succeed).outLen = s.outLen := rfl
@[simp] theorem State.succeed_inBuf (s : State) : (s.succeed).inBuf = s.inBuf := rfl
@[simp] theorem State.succeed_outBuf (s : State) : (s.succeed).outBuf = s.outBuf := rfl
@[simp] theorem State.succeed_params (s : State) : (s.succeed).params = s.params := rfl
@[simp] theorem State.succeed_resetEpoch (s : State) : (s.succeed).resetEpoch = s.resetEpoch := rfl
@[simp] theorem State.succeed_hostQueue (s : State) : (s.succeed).hostQueue = s.hostQueue := rfl
@[simp] theorem State.succeed_hostReply (s : State) : (s.succeed).hostReply = s.hostReply := rfl

@[simp] theorem State.memWrite_cmd (s : State) (bs : List Byte) : (s.memWrite bs).cmd = s.cmd := rfl
@[simp] theorem State.memWrite_status (s : State) (bs : List Byte) : (s.memWrite bs).status = s.status := rfl
@[simp] theorem State.memWrite_ctrl (s : State) (bs : List Byte) : (s.memWrite bs).ctrl = s.ctrl := rfl
@[simp] theorem State.memWrite_limit (s : State) (bs : List Byte) : (s.memWrite bs).limit = s.limit := rfl
@[simp] theorem State.memWrite_val (s : State) (bs : List Byte) : (s.memWrite bs).val = s.val := rfl
@[simp] theorem State.memWrite_res (s : State) (bs : List Byte) : (s.memWrite bs).res = s.res := rfl
@[simp] theorem State.memWrite_cnt (s : State) (bs : List Byte) : (s.memWrite bs).cnt = s.cnt := rfl
@[simp] theorem State.memWrite_inLen (s : State) (bs : List Byte) : (s.memWrite bs).inLen = s.inLen := rfl
@[simp] theorem State.memWrite_outLen (s : State) (bs : List Byte) : (s.memWrite bs).outLen = wordOfNat bs.length := rfl
@[simp] theorem State.memWrite_inBuf (s : State) (bs : List Byte) : (s.memWrite bs).inBuf = s.inBuf := rfl
@[simp] theorem State.memWrite_outBuf (s : State) (bs : List Byte) : (s.memWrite bs).outBuf = s.outBuf.writeRange 0 bs := rfl
@[simp] theorem State.memWrite_params (s : State) (bs : List Byte) : (s.memWrite bs).params = s.params := rfl
@[simp] theorem State.memWrite_resetEpoch (s : State) (bs : List Byte) : (s.memWrite bs).resetEpoch = s.resetEpoch := rfl
@[simp] theorem State.memWrite_hostQueue (s : State) (bs : List Byte) : (s.memWrite bs).hostQueue = s.hostQueue := rfl
@[simp] theorem State.memWrite_hostReply (s : State) (bs : List Byte) : (s.memWrite bs).hostReply = s.hostReply := rfl

@[simp] theorem State.writeRes_cmd (s : State) (v : Word) : (s.writeRes v).cmd = s.cmd := rfl
@[simp] theorem State.writeRes_status (s : State) (v : Word) : (s.writeRes v).status = s.status := rfl
@[simp] theorem State.writeRes_ctrl (s : State) (v : Word) : (s.writeRes v).ctrl = s.ctrl := rfl
@[simp] theorem State.writeRes_limit (s : State) (v : Word) : (s.writeRes v).limit = s.limit := rfl
@[simp] theorem State.writeRes_val (s : State) (v : Word) : (s.writeRes v).val = s.val := rfl
@[simp] theorem State.writeRes_res (s : State) (v : Word) : (s.writeRes v).res = v := rfl
@[simp] theorem State.writeRes_cnt (s : State) (v : Word) : (s.writeRes v).cnt = s.cnt := rfl
@[simp] theorem State.writeRes_inLen (s : State) (v : Word) : (s.writeRes v).inLen = s.inLen := rfl
@[simp] theorem State.writeRes_outLen (s : State) (v : Word) : (s.writeRes v).outLen = s.outLen := rfl
@[simp] theorem State.writeRes_inBuf (s : State) (v : Word) : (s.writeRes v).inBuf = s.inBuf := rfl
@[simp] theorem State.writeRes_outBuf (s : State) (v : Word) : (s.writeRes v).outBuf = s.outBuf := rfl
@[simp] theorem State.writeRes_params (s : State) (v : Word) : (s.writeRes v).params = s.params := rfl
@[simp] theorem State.writeRes_resetEpoch (s : State) (v : Word) : (s.writeRes v).resetEpoch = s.resetEpoch := rfl
@[simp] theorem State.writeRes_hostQueue (s : State) (v : Word) : (s.writeRes v).hostQueue = s.hostQueue := rfl
@[simp] theorem State.writeRes_hostReply (s : State) (v : Word) : (s.writeRes v).hostReply = s.hostReply := rfl

@[simp] theorem State.writeCnt_cmd (s : State) (n : Nat) : (s.writeCnt n).cmd = s.cmd := rfl
@[simp] theorem State.writeCnt_status (s : State) (n : Nat) : (s.writeCnt n).status = s.status := rfl
@[simp] theorem State.writeCnt_ctrl (s : State) (n : Nat) : (s.writeCnt n).ctrl = s.ctrl := rfl
@[simp] theorem State.writeCnt_limit (s : State) (n : Nat) : (s.writeCnt n).limit = s.limit := rfl
@[simp] theorem State.writeCnt_val (s : State) (n : Nat) : (s.writeCnt n).val = s.val := rfl
@[simp] theorem State.writeCnt_res (s : State) (n : Nat) : (s.writeCnt n).res = s.res := rfl
@[simp] theorem State.writeCnt_cnt (s : State) (n : Nat) : (s.writeCnt n).cnt = wordOfNat n := rfl
@[simp] theorem State.writeCnt_inLen (s : State) (n : Nat) : (s.writeCnt n).inLen = s.inLen := rfl
@[simp] theorem State.writeCnt_outLen (s : State) (n : Nat) : (s.writeCnt n).outLen = s.outLen := rfl
@[simp] theorem State.writeCnt_inBuf (s : State) (n : Nat) : (s.writeCnt n).inBuf = s.inBuf := rfl
@[simp] theorem State.writeCnt_outBuf (s : State) (n : Nat) : (s.writeCnt n).outBuf = s.outBuf := rfl
@[simp] theorem State.writeCnt_params (s : State) (n : Nat) : (s.writeCnt n).params = s.params := rfl
@[simp] theorem State.writeCnt_resetEpoch (s : State) (n : Nat) : (s.writeCnt n).resetEpoch = s.resetEpoch := rfl
@[simp] theorem State.writeCnt_hostQueue (s : State) (n : Nat) : (s.writeCnt n).hostQueue = s.hostQueue := rfl
@[simp] theorem State.writeCnt_hostReply (s : State) (n : Nat) : (s.writeCnt n).hostReply = s.hostReply := rfl

@[simp] theorem State.writeCtrl_cmd (s : State) (w : Half) : (s.writeCtrl w).cmd = s.cmd := rfl
@[simp] theorem State.writeCtrl_status (s : State) (w : Half) : (s.writeCtrl w).status = s.status := rfl
@[simp] theorem State.writeCtrl_ctrl (s : State) (w : Half) : (s.writeCtrl w).ctrl = w &&& ctrlMask := rfl
@[simp] theorem State.writeCtrl_limit (s : State) (w : Half) : (s.writeCtrl w).limit = s.limit := rfl
@[simp] theorem State.writeCtrl_val (s : State) (w : Half) : (s.writeCtrl w).val = s.val := rfl
@[simp] theorem State.writeCtrl_res (s : State) (w : Half) : (s.writeCtrl w).res = s.res := rfl
@[simp] theorem State.writeCtrl_cnt (s : State) (w : Half) : (s.writeCtrl w).cnt = s.cnt := rfl
@[simp] theorem State.writeCtrl_inLen (s : State) (w : Half) : (s.writeCtrl w).inLen = s.inLen := rfl
@[simp] theorem State.writeCtrl_outLen (s : State) (w : Half) : (s.writeCtrl w).outLen = s.outLen := rfl
@[simp] theorem State.writeCtrl_inBuf (s : State) (w : Half) : (s.writeCtrl w).inBuf = s.inBuf := rfl
@[simp] theorem State.writeCtrl_outBuf (s : State) (w : Half) : (s.writeCtrl w).outBuf = s.outBuf := rfl
@[simp] theorem State.writeCtrl_params (s : State) (w : Half) : (s.writeCtrl w).params = s.params := rfl
@[simp] theorem State.writeCtrl_resetEpoch (s : State) (w : Half) : (s.writeCtrl w).resetEpoch = s.resetEpoch := rfl
@[simp] theorem State.writeCtrl_hostQueue (s : State) (w : Half) : (s.writeCtrl w).hostQueue = s.hostQueue := rfl
@[simp] theorem State.writeCtrl_hostReply (s : State) (w : Half) : (s.writeCtrl w).hostReply = s.hostReply := rfl

@[simp] theorem State.writeBO_cmd (s : State) (v : Nat) : (s.writeBO v).cmd = s.cmd := rfl
@[simp] theorem State.writeBO_status (s : State) (v : Nat) : (s.writeBO v).status = s.status := rfl
@[simp] theorem State.writeBO_ctrl (s : State) (v : Nat) : (s.writeBO v).ctrl = putField s.ctrlWord 0 1 v &&& ctrlMask := rfl
@[simp] theorem State.writeBO_limit (s : State) (v : Nat) : (s.writeBO v).limit = s.limit := rfl
@[simp] theorem State.writeBO_val (s : State) (v : Nat) : (s.writeBO v).val = s.val := rfl
@[simp] theorem State.writeBO_res (s : State) (v : Nat) : (s.writeBO v).res = s.res := rfl
@[simp] theorem State.writeBO_cnt (s : State) (v : Nat) : (s.writeBO v).cnt = s.cnt := rfl
@[simp] theorem State.writeBO_inLen (s : State) (v : Nat) : (s.writeBO v).inLen = s.inLen := rfl
@[simp] theorem State.writeBO_outLen (s : State) (v : Nat) : (s.writeBO v).outLen = s.outLen := rfl
@[simp] theorem State.writeBO_inBuf (s : State) (v : Nat) : (s.writeBO v).inBuf = s.inBuf := rfl
@[simp] theorem State.writeBO_outBuf (s : State) (v : Nat) : (s.writeBO v).outBuf = s.outBuf := rfl
@[simp] theorem State.writeBO_params (s : State) (v : Nat) : (s.writeBO v).params = s.params := rfl
@[simp] theorem State.writeBO_resetEpoch (s : State) (v : Nat) : (s.writeBO v).resetEpoch = s.resetEpoch := rfl
@[simp] theorem State.writeBO_hostQueue (s : State) (v : Nat) : (s.writeBO v).hostQueue = s.hostQueue := rfl
@[simp] theorem State.writeBO_hostReply (s : State) (v : Nat) : (s.writeBO v).hostReply = s.hostReply := rfl

@[simp] theorem State.writeMode_cmd (s : State) (v : Nat) : (s.writeMode v).cmd = s.cmd := rfl
@[simp] theorem State.writeMode_status (s : State) (v : Nat) : (s.writeMode v).status = s.status := rfl
@[simp] theorem State.writeMode_ctrl (s : State) (v : Nat) : (s.writeMode v).ctrl = putField s.ctrlWord 1 1 v &&& ctrlMask := rfl
@[simp] theorem State.writeMode_limit (s : State) (v : Nat) : (s.writeMode v).limit = s.limit := rfl
@[simp] theorem State.writeMode_val (s : State) (v : Nat) : (s.writeMode v).val = s.val := rfl
@[simp] theorem State.writeMode_res (s : State) (v : Nat) : (s.writeMode v).res = s.res := rfl
@[simp] theorem State.writeMode_cnt (s : State) (v : Nat) : (s.writeMode v).cnt = s.cnt := rfl
@[simp] theorem State.writeMode_inLen (s : State) (v : Nat) : (s.writeMode v).inLen = s.inLen := rfl
@[simp] theorem State.writeMode_outLen (s : State) (v : Nat) : (s.writeMode v).outLen = s.outLen := rfl
@[simp] theorem State.writeMode_inBuf (s : State) (v : Nat) : (s.writeMode v).inBuf = s.inBuf := rfl
@[simp] theorem State.writeMode_outBuf (s : State) (v : Nat) : (s.writeMode v).outBuf = s.outBuf := rfl
@[simp] theorem State.writeMode_params (s : State) (v : Nat) : (s.writeMode v).params = s.params := rfl
@[simp] theorem State.writeMode_resetEpoch (s : State) (v : Nat) : (s.writeMode v).resetEpoch = s.resetEpoch := rfl
@[simp] theorem State.writeMode_hostQueue (s : State) (v : Nat) : (s.writeMode v).hostQueue = s.hostQueue := rfl
@[simp] theorem State.writeMode_hostReply (s : State) (v : Nat) : (s.writeMode v).hostReply = s.hostReply := rfl

@[simp] theorem State.writeIW_cmd (s : State) (v : Nat) : (s.writeIW v).cmd = s.cmd := rfl
@[simp] theorem State.writeIW_status (s : State) (v : Nat) : (s.writeIW v).status = s.status := rfl
@[simp] theorem State.writeIW_ctrl (s : State) (v : Nat) : (s.writeIW v).ctrl = putField s.ctrlWord 2 2 v &&& ctrlMask := rfl
@[simp] theorem State.writeIW_limit (s : State) (v : Nat) : (s.writeIW v).limit = s.limit := rfl
@[simp] theorem State.writeIW_val (s : State) (v : Nat) : (s.writeIW v).val = s.val := rfl
@[simp] theorem State.writeIW_res (s : State) (v : Nat) : (s.writeIW v).res = s.res := rfl
@[simp] theorem State.writeIW_cnt (s : State) (v : Nat) : (s.writeIW v).cnt = s.cnt := rfl
@[simp] theorem State.writeIW_inLen (s : State) (v : Nat) : (s.writeIW v).inLen = s.inLen := rfl
@[simp] theorem State.writeIW_outLen (s : State) (v : Nat) : (s.writeIW v).outLen = s.outLen := rfl
@[simp] theorem State.writeIW_inBuf (s : State) (v : Nat) : (s.writeIW v).inBuf = s.inBuf := rfl
@[simp] theorem State.writeIW_outBuf (s : State) (v : Nat) : (s.writeIW v).outBuf = s.outBuf := rfl
@[simp] theorem State.writeIW_params (s : State) (v : Nat) : (s.writeIW v).params = s.params := rfl
@[simp] theorem State.writeIW_resetEpoch (s : State) (v : Nat) : (s.writeIW v).resetEpoch = s.resetEpoch := rfl
@[simp] theorem State.writeIW_hostQueue (s : State) (v : Nat) : (s.writeIW v).hostQueue = s.hostQueue := rfl
@[simp] theorem State.writeIW_hostReply (s : State) (v : Nat) : (s.writeIW v).hostReply = s.hostReply := rfl

@[simp] theorem State.writeLimit_cmd (s : State) (v : Word) : (s.writeLimit v).cmd = s.cmd := rfl
@[simp] theorem State.writeLimit_status (s : State) (v : Word) : (s.writeLimit v).status = s.status := rfl
@[simp] theorem State.writeLimit_ctrl (s : State) (v : Word) : (s.writeLimit v).ctrl = s.ctrl := rfl
@[simp] theorem State.writeLimit_limit (s : State) (v : Word) : (s.writeLimit v).limit = v := rfl
@[simp] theorem State.writeLimit_val (s : State) (v : Word) : (s.writeLimit v).val = s.val := rfl
@[simp] theorem State.writeLimit_res (s : State) (v : Word) : (s.writeLimit v).res = s.res := rfl
@[simp] theorem State.writeLimit_cnt (s : State) (v : Word) : (s.writeLimit v).cnt = s.cnt := rfl
@[simp] theorem State.writeLimit_inLen (s : State) (v : Word) : (s.writeLimit v).inLen = s.inLen := rfl
@[simp] theorem State.writeLimit_outLen (s : State) (v : Word) : (s.writeLimit v).outLen = s.outLen := rfl
@[simp] theorem State.writeLimit_inBuf (s : State) (v : Word) : (s.writeLimit v).inBuf = s.inBuf := rfl
@[simp] theorem State.writeLimit_outBuf (s : State) (v : Word) : (s.writeLimit v).outBuf = s.outBuf := rfl
@[simp] theorem State.writeLimit_params (s : State) (v : Word) : (s.writeLimit v).params = s.params := rfl
@[simp] theorem State.writeLimit_resetEpoch (s : State) (v : Word) : (s.writeLimit v).resetEpoch = s.resetEpoch := rfl
@[simp] theorem State.writeLimit_hostQueue (s : State) (v : Word) : (s.writeLimit v).hostQueue = s.hostQueue := rfl
@[simp] theorem State.writeLimit_hostReply (s : State) (v : Word) : (s.writeLimit v).hostReply = s.hostReply := rfl

@[simp] theorem statusOfCode_zero : statusOfCode 0 = 0 := rfl

@[simp] theorem State.afterReset_cmd (s : State) : s.afterReset.cmd = State.reset.cmd := rfl
@[simp] theorem State.afterReset_status (s : State) : s.afterReset.status = State.reset.status := rfl
@[simp] theorem State.afterReset_ctrl (s : State) : s.afterReset.ctrl = State.reset.ctrl := rfl
@[simp] theorem State.afterReset_limit (s : State) : s.afterReset.limit = State.reset.limit := rfl
@[simp] theorem State.afterReset_val (s : State) : s.afterReset.val = State.reset.val := rfl
@[simp] theorem State.afterReset_res (s : State) : s.afterReset.res = State.reset.res := rfl
@[simp] theorem State.afterReset_cnt (s : State) : s.afterReset.cnt = State.reset.cnt := rfl
@[simp] theorem State.afterReset_inLen (s : State) : s.afterReset.inLen = State.reset.inLen := rfl
@[simp] theorem State.afterReset_outLen (s : State) : s.afterReset.outLen = State.reset.outLen := rfl
@[simp] theorem State.afterReset_inBuf (s : State) : s.afterReset.inBuf = State.reset.inBuf := rfl
@[simp] theorem State.afterReset_outBuf (s : State) : s.afterReset.outBuf = State.reset.outBuf := rfl
@[simp] theorem State.afterReset_params (s : State) : s.afterReset.params = s.params := rfl
@[simp] theorem State.afterReset_resetEpoch (s : State) : s.afterReset.resetEpoch = s.resetEpoch + 1 := rfl
@[simp] theorem State.afterReset_hostQueue (s : State) : s.afterReset.hostQueue = s.hostQueue := rfl
@[simp] theorem State.afterReset_hostReply (s : State) : s.afterReset.hostReply = s.hostReply := rfl

end Sys2Proof.Machine
end

