-- ==== Sys2Proof/Laws/Memory.lean ====
section
/-! SUPPORT. What the buffer operations do: a read after a write, the canonical form and the capacity kept, and MemRead
and MemWrite said byte by byte. -/

namespace Sys2Proof.Machine

@[simp] theorem Memory.read_nil (a : Nat) : Memory.read [] a = none := rfl

theorem Memory.read_write (m : Memory) (a c : Nat) (b : Byte) :
    (m.write a b).read c = if c = a then some b else m.read c := by
  induction m with
  | nil => simp [Memory.write, Memory.read, eq_comm]
  | cons cell rest ih =>
    obtain ⟨k, d⟩ := cell
    simp only [Memory.write]
    split
    · simp [Memory.read, eq_comm]
    · split
      · subst_vars; by_cases h : c = k <;> simp [Memory.read, h, eq_comm]
      · by_cases h : c = a
        · subst h; simp only [Memory.read, ih]; simp; omega
        · simp only [Memory.read, ih, h]; simp

/-- The canonical form of a list with a first cell: that cell's index is below every other, and the rest is canonical. -/
theorem Memory.wf_cons (k : Nat) (b : Byte) (m : Memory) :
    Memory.wf ((k, b) :: m) = true ↔ (∀ cell ∈ m, k < cell.1) ∧ m.wf = true := by
  induction m generalizing k b with
  | nil => simp [Memory.wf]
  | cons cell rest ih =>
    obtain ⟨l, c⟩ := cell
    simp only [Memory.wf, Bool.and_eq_true, decide_eq_true_eq, List.mem_cons, forall_eq_or_imp]
    constructor
    · rintro ⟨h, hw⟩
      exact ⟨⟨h, fun x hx => Nat.lt_trans h (((ih l c).1 hw).1 x hx)⟩, hw⟩
    · rintro ⟨⟨h, -⟩, hw⟩
      exact ⟨h, hw⟩

theorem Memory.mem_write {m : Memory} {a : Nat} {b : Byte} {cell : Host.Cell} (h : cell ∈ m.write a b) :
    cell = (a, b) ∨ cell ∈ m := by
  induction m with
  | nil => simpa [Memory.write] using h
  | cons x rest ih =>
    obtain ⟨k, c⟩ := x
    simp only [Memory.write] at h
    split at h
    · simpa using h
    · split at h
      · simp at h ⊢; tauto
      · simp at h ⊢; tauto

theorem Memory.write_wf (m : Memory) (a : Nat) (b : Byte) (h : m.wf = true) : (m.write a b).wf = true := by
  induction m with
  | nil => rfl
  | cons cell rest ih =>
    obtain ⟨k, c⟩ := cell
    have ⟨hk, hr⟩ := (Memory.wf_cons k c rest).1 h
    simp only [Memory.write]
    split
    next hlt =>
      refine (Memory.wf_cons _ _ _).2 ⟨?_, h⟩
      rintro x hx
      obtain rfl | hx := List.mem_cons.1 hx
      · exact hlt
      · exact Nat.lt_trans hlt (hk x hx)
    · split
      next heq => exact (Memory.wf_cons _ _ _).2 ⟨fun x hx => heq ▸ hk x hx, hr⟩
      next hnlt hne =>
        refine (Memory.wf_cons _ _ _).2 ⟨fun x hx => ?_, ih hr⟩
        obtain rfl | hx := Memory.mem_write hx
        · show k < a; omega
        · exact hk x hx

theorem Memory.within_iff (m : Memory) (cap : Nat) : m.within cap = true ↔ ∀ cell ∈ m, cell.1 < cap := by
  simp [Memory.within]

theorem Memory.write_within (m : Memory) (a cap : Nat) (b : Byte) (h : m.within cap = true) (ha : a < cap) :
    (m.write a b).within cap = true := by
  rw [Memory.within_iff] at h ⊢
  intro cell hc
  obtain rfl | hc := Memory.mem_write hc
  · exact ha
  · exact h cell hc

theorem Memory.read_writeRange (m : Memory) (a c : Nat) (bs : List Byte) :
    (m.writeRange a bs).read c = if a ≤ c ∧ c < a + bs.length then bs[c - a]? else m.read c := by
  induction bs generalizing m a with
  | nil => simp [Memory.writeRange]
  | cons b rest ih =>
    simp only [Memory.writeRange, ih, Memory.read_write, List.length_cons]
    by_cases h1 : c = a
    · subst h1; simp
    · by_cases h2 : a + 1 ≤ c ∧ c < a + 1 + rest.length
      · rw [if_pos h2, if_pos (by omega), show c - a = (c - (a + 1)) + 1 by omega, List.getElem?_cons_succ]
      · rw [if_neg h2, if_neg h1, if_neg (by omega)]

theorem Memory.writeRange_wf (m : Memory) (a : Nat) (bs : List Byte) (h : m.wf = true) :
    (m.writeRange a bs).wf = true := by
  induction bs generalizing m a with
  | nil => exact h
  | cons b rest ih => exact ih _ _ (Memory.write_wf m a b h)

theorem Memory.writeRange_within (m : Memory) (a cap : Nat) (bs : List Byte) (h : m.within cap = true)
    (ha : a + bs.length ≤ cap) : (m.writeRange a bs).within cap = true := by
  induction bs generalizing m a with
  | nil => exact h
  | cons b rest ih =>
    simp only [List.length_cons] at ha
    exact ih _ _ (Memory.write_within m a cap b h (by omega)) (by omega)

/-- MemRead answers exactly the bytes of the range, and only when every one of them is written. -/
theorem Memory.readRange_eq_some (m : Memory) (a n : Nat) (bs : List Byte) :
    m.readRange a n = some bs ↔ bs.length = n ∧ ∀ i < n, m.read (a + i) = bs[i]? := by
  induction n generalizing a bs with
  | zero => simp only [Memory.readRange, Option.some.injEq]; constructor
            · rintro rfl; simp
            · rintro ⟨h, -⟩; exact (List.length_eq_zero_iff.1 h).symm
  | succ k ih =>
    simp only [Memory.readRange]
    cases hr : m.read a with
    | none =>
      simp only [reduceCtorEq, false_iff, not_and]
      intro hl hall
      have := hall 0 (by omega)
      rw [Nat.add_zero, hr, List.getElem?_eq_getElem (by omega)] at this
      cases this
    | some b =>
      simp only
      cases hrest : m.readRange (a + 1) k with
      | none =>
        simp only [reduceCtorEq, false_iff, not_and]
        intro hl hall
        cases bs with
        | nil => simp at hl
        | cons c cs =>
          have : m.readRange (a + 1) k = some cs := (ih (a + 1) cs).2 ⟨by simpa using hl, fun i hi => by
            have := hall (i + 1) (by omega)
            rwa [List.getElem?_cons_succ, show a + (i + 1) = a + 1 + i by omega] at this⟩
          rw [hrest] at this; cases this
      | some cs =>
        have ⟨hl, hall⟩ := (ih (a + 1) cs).1 hrest
        simp only [Option.some.injEq]
        constructor
        · rintro rfl
          refine ⟨by simpa using hl, fun i hi => ?_⟩
          cases i with
          | zero => simpa using hr
          | succ j => rw [List.getElem?_cons_succ, show a + (j + 1) = a + 1 + j by omega]; exact hall j (by omega)
        · rintro ⟨hl', hall'⟩
          cases bs with
          | nil => simp at hl'
          | cons c ds =>
            have h0 := hall' 0 (by omega)
            rw [Nat.add_zero, hr] at h0
            have hds : m.readRange (a + 1) k = some ds := (ih (a + 1) ds).2 ⟨by simpa using hl', fun i hi => by
              have := hall' (i + 1) (by omega)
              rwa [List.getElem?_cons_succ, show a + (i + 1) = a + 1 + i by omega] at this⟩
            rw [hrest] at hds
            simp_all

theorem Memory.readRange_eq_none (m : Memory) (a n : Nat) :
    m.readRange a n = none ↔ ∃ i < n, m.read (a + i) = none := by
  induction n generalizing a with
  | zero => simp [Memory.readRange]
  | succ k ih =>
    simp only [Memory.readRange]
    cases hr : m.read a with
    | none => exact ⟨fun _ => ⟨0, by omega, by simpa using hr⟩, fun _ => rfl⟩
    | some b =>
      have step : (∃ i < k + 1, m.read (a + i) = none) ↔ ∃ i < k, m.read (a + 1 + i) = none := by
        constructor
        · rintro ⟨i, hi, h⟩
          cases i with
          | zero => rw [Nat.add_zero, hr] at h; cases h
          | succ j => exact ⟨j, by omega, by rwa [show a + 1 + j = a + (j + 1) by omega]⟩
        · rintro ⟨i, hi, h⟩
          exact ⟨i + 1, by omega, by rwa [show a + (i + 1) = a + 1 + i by omega]⟩
      rw [step, ← ih (a + 1)]
      cases m.readRange (a + 1) k <;> simp

/-- MemRead(IN, 0, IN_LEN) said byte by byte (20_memory.md R53). -/
theorem State.memRead_eq_some (s : State) (bs : List Byte) : s.memRead = some bs ↔ s.InputIs bs := by
  rw [State.memRead, Memory.readRange_eq_some]
  constructor
  · rintro ⟨h1, h2⟩; exact ⟨h1, fun a ha => by simpa using h2 a (by omega)⟩
  · rintro ⟨h1, h2⟩; exact ⟨h1, fun a ha => by simpa using h2 a (by omega)⟩

theorem State.memRead_eq_none (s : State) :
    s.memRead = none ↔ ∃ a < s.inLen.toNat, s.inBuf.read a = none := by
  rw [State.memRead, Memory.readRange_eq_none]; simp

/-- MemWrite(OUT, 0, n, s) said byte by byte (20_memory.md R54). -/
theorem State.memWrite_outputIs (s : State) (bs : List Byte) : OutputIs s (s.memWrite bs) bs := by
  refine ⟨rfl, fun a => ?_⟩
  rw [State.memWrite_outBuf, Memory.read_writeRange]; simp

end Sys2Proof.Machine
end

