-- ==== Sys2Proof/Laws/Ops.lean ====
section
/-! SUPPORT. What the shared ends of a command can do, said once (spec 60_exceptions.md R202 to R204), and the
configuration view after a write of CTRL (10_state.md R25). -/

namespace Sys2Proof.Machine

@[simp] theorem State.withErr_code (s : State) (e : ErrKind) : s.raise e = s.withErr e.code.toNat := by
  cases e <;> rfl

/-- A command that computes `r` and ends: it raises, or it writes and succeeds. -/
theorem State.conclude_eq {α : Type} (s : State) (r : Except ErrKind α) (w : α → State → State) :
    (∃ e, r = .error e ∧ s.conclude r w = .next (s.raise e)) ∨
    (∃ a, r = .ok a ∧ s.conclude r w = .next (w a s).succeed) := by
  cases r with
  | error e => exact .inl ⟨e, rfl, rfl⟩
  | ok a => exact .inr ⟨a, rfl, rfl⟩

/-- A command that reads IN: refused when a byte of its input is unwritten, else it goes on with the input. -/
theorem State.withInput_eq (s : State) (k : List Byte → Host.Outcome State Fault Refusal) :
    ((∃ a < s.inLen.toNat, s.inBuf.read a = none) ∧ s.withInput k = .refused .unwrittenInput) ∨
    (∃ bs, s.InputIs bs ∧ s.withInput k = k bs) := by
  unfold State.withInput
  cases h : s.memRead with
  | none => exact .inl ⟨(State.memRead_eq_none s).1 h, rfl⟩
  | some bs => exact .inr ⟨bs, (State.memRead_eq_some s bs).1 h, rfl⟩

theorem State.withInput_of_inputIs {s : State} {bs : List Byte} (h : s.InputIs bs)
    (k : List Byte → Host.Outcome State Fault Refusal) : s.withInput k = k bs := by
  rw [State.withInput, (State.memRead_eq_some s bs).2 h]

/-- The input is determined: two byte sequences that are both the input are equal. -/
theorem State.inputIs_unique {s : State} {bs cs : List Byte} (h1 : s.InputIs bs) (h2 : s.InputIs cs) : bs = cs := by
  rw [← State.memRead_eq_some] at h1 h2
  rw [h1] at h2
  exact Option.some.inj h2

/-- The outcome of a command that succeeds after writing OUT. -/
theorem State.memWrite_onlyOutput (s : State) (bs : List Byte) : OnlyOutput s (s.memWrite bs).succeed := rfl

theorem State.memWrite_succeed_outputIs (s : State) (bs : List Byte) : OutputIs s (s.memWrite bs).succeed bs :=
  State.memWrite_outputIs s bs

/-- The four bits of CTRL that exist, with the rest hardwired 0. -/
theorem ctrl_low (c : Half) : c &&& ctrlMask = BitVec.ofNat 32 (c.toNat % 16) := by
  apply BitVec.eq_of_toNat_eq
  have h : c.toNat &&& 15 = c.toNat % 16 := Nat.and_two_pow_sub_one_eq_mod c.toNat 4
  simp only [ctrlMask, BitVec.toNat_and, BitVec.toNat_ofNat]
  change c.toNat &&& 15 = _
  omega

/-- A fact about the configuration fields of CTRL holds when it holds of the sixteen values its four bits can have. -/
theorem ctrl_cases {P : Half → Prop} (h : ∀ n < 16, P (BitVec.ofNat 32 n)) (c : Half) : P (c &&& ctrlMask) := by
  rw [ctrl_low]; exact h _ (Nat.mod_lt _ (by decide))

@[simp] theorem State.ctrlWord_writeCtrl (s : State) (w : Half) : (s.writeCtrl w).ctrlWord = w &&& ctrlMask := by
  simp [State.ctrlWord, BitVec.and_assoc]

/-- `cfg.intWidth` is one of the source's legal widths in every state (10_state.md R25). -/
theorem State.intWidth_cases (s : State) :
    s.cfg.intWidth = 1 ∨ s.cfg.intWidth = 2 ∨ s.cfg.intWidth = 4 ∨ s.cfg.intWidth = 8 := by
  exact ctrl_cases (P := fun w => widthOfCode (getField w 2 2) = 1 ∨ widthOfCode (getField w 2 2) = 2 ∨
    widthOfCode (getField w 2 2) = 4 ∨ widthOfCode (getField w 2 2) = 8) (by decide) s.ctrl

end Sys2Proof.Machine
end

