-- ==== Sys2Proof/Laws/Codec.lean ====
section
/-! SUPPORT. The codec functions: byte sequences and their numbers (spec 00_scope.md R9), LEB128 (43_varint.md R142, R143),
lengths of prefixes and payloads (41_length_prefix.md R100). -/

namespace Sys2Proof.Machine

@[simp] theorem leBytes_length (v n : Nat) : (leBytes v n).length = n := by
  induction n generalizing v with
  | zero => rfl
  | succ k ih => simp [leBytes, ih]

@[simp] theorem beBytes_length (v n : Nat) : (beBytes v n).length = n := by simp [beBytes]

@[simp] theorem emitFixed_length (v : Word) (n : Nat) (bo : ByteOrder) : (emitFixed v n bo).length = n := by
  cases bo <;> simp [emitFixed]

/-- The i-th byte of `le_bytes(v, n)` is `(v >> 8i) & 0xFF`: the spec's own form of R9. -/
theorem leBytes_getElem (v n i : Nat) (h : i < (leBytes v n).length) :
    (leBytes v n)[i] = BitVec.ofNat 8 (v / 256 ^ i) := by
  induction n generalizing v i with
  | zero => simp at h
  | succ k ih =>
    cases i with
    | zero => simp [leBytes]
    | succ j =>
      have := ih (v / 256) j (by simpa [leBytes] using h)
      simpa [leBytes, Nat.div_div_eq_div_mul, Nat.pow_succ, Nat.mul_comm] using this

theorem leValue_lt (s : List Byte) : leValue s < 256 ^ s.length := by
  induction s with
  | nil => decide
  | cons b rest ih =>
    have := b.isLt
    simp only [leValue, List.length_cons, Nat.pow_succ]
    omega

theorem beValue_lt (s : List Byte) : beValue s < 256 ^ s.length := by
  simpa [beValue] using leValue_lt s.reverse

theorem leValue_leBytes (v n : Nat) : leValue (leBytes v n) = v % 256 ^ n := by
  induction n generalizing v with
  | zero => simp [leBytes, leValue, Nat.mod_one]
  | succ k ih =>
    simp only [leBytes, leValue, ih, BitVec.toNat_ofNat]
    rw [Nat.pow_succ 256 k, Nat.mul_comm (256 ^ k) 256, Nat.mod_mul]

theorem beValue_beBytes (v n : Nat) : beValue (beBytes v n) = v % 256 ^ n := by
  simp [beValue, beBytes, leValue_leBytes]

theorem orderedValue_emitFixed (v : Word) (n : Nat) (bo : ByteOrder) :
    orderedValue (emitFixed v n bo) bo = v.toNat % 256 ^ n := by
  cases bo
  · exact leValue_leBytes _ _
  · exact beValue_beBytes _ _

theorem leValue_append (s t : List Byte) : leValue (s ++ t) = leValue s + 256 ^ s.length * leValue t := by
  induction s with
  | nil => simp [leValue]
  | cons b rest ih => simp only [List.cons_append, leValue, ih, List.length_cons, Nat.pow_succ]; ring

/-- The most significant byte decides the top bit of the number (R121). -/
theorem topByte_iff (bs : List Byte) (bo : ByteOrder) (h : bs ≠ []) :
    128 ≤ (topByte bs bo).toNat ↔ 256 ^ bs.length ≤ 2 * orderedValue bs bo := by
  have key : ∀ (l : List Byte) (b : Byte), 128 ≤ b.toNat ↔ 256 ^ (l.length + 1) ≤ 2 * leValue (l ++ [b]) := by
    intro l b
    have hl := leValue_lt l
    rw [leValue_append]
    simp only [leValue, Nat.pow_succ, Nat.mul_zero, Nat.add_zero]
    have hb := b.isLt
    constructor
    · intro h1
      have : 256 ^ l.length * 128 ≤ 256 ^ l.length * b.toNat := Nat.mul_le_mul_left _ h1
      omega
    · intro h1
      by_contra hc
      have : 256 ^ l.length * b.toNat ≤ 256 ^ l.length * 127 := Nat.mul_le_mul_left _ (by omega)
      omega
  cases bo with
  | littleEndian =>
    obtain ⟨l, b, rfl⟩ := List.eq_nil_or_concat bs |>.resolve_left h
    simpa [topByte, orderedValue] using key l b
  | bigEndian =>
    obtain ⟨b, l, rfl⟩ := List.exists_cons_of_ne_nil h
    simpa [topByte, orderedValue, beValue] using key l.reverse b

/-- A number the spec writes as a digit sum is the value of the bytes (R9). -/
theorem leValue_eq_digitSum (s : List Byte) : leValue s = digitSum 256 (byteAt s) s.length := by
  induction s using List.reverseRecOn with
  | nil => rfl
  | append_singleton l b ih =>
    rw [leValue_append, ih]
    simp only [List.length_append, List.length_singleton, digitSum, leValue]
    congr 1
    · have : ∀ n ≤ l.length, digitSum 256 (byteAt l) n = digitSum 256 (byteAt (l ++ [b])) n := by
        intro n hn
        induction n with
        | zero => rfl
        | succ k ihk =>
          simp only [digitSum, ihk (by omega)]
          congr 2
          simp [byteAt, List.getElem?_append_left (show k < l.length by omega)]
      exact this _ (Nat.le_refl _)
    · simp [byteAt, Nat.mul_comm]

theorem digitSum_congr (base : Nat) (d e : Nat → Nat) (n : Nat) (h : ∀ i < n, d i = e i) :
    digitSum base d n = digitSum base e n := by
  induction n with
  | zero => rfl
  | succ k ih => simp only [digitSum, ih fun i hi => h i (by omega), h k (by omega)]

/-- The number of a slice, in either byte order, as the digit sum `numberAt` (R9, R101, R121). -/
theorem orderedValue_slice (bo : ByteOrder) (bs : List Byte) (k n : Nat) (h : k + n ≤ bs.length) :
    orderedValue ((bs.drop k).take n) bo = numberAt bo bs k n := by
  have hlen : ((bs.drop k).take n).length = n := by simp; omega
  have hget : ∀ i < n, byteAt ((bs.drop k).take n) i = byteAt bs (k + i) := by
    intro i hi
    simp [byteAt, List.getD_eq_getElem?_getD, hi]
  cases bo with
  | littleEndian =>
    simp only [orderedValue, numberAt, leValue_eq_digitSum, hlen]
    exact digitSum_congr _ _ _ _ hget
  | bigEndian =>
    simp only [orderedValue, numberAt, beValue, leValue_eq_digitSum, List.length_reverse, hlen]
    refine digitSum_congr _ _ _ _ fun i hi => ?_
    rw [← hget (n - 1 - i) (by omega)]
    unfold byteAt
    rw [List.getD_eq_getElem?_getD, List.getD_eq_getElem?_getD, List.getElem?_reverse (by omega), hlen]

/-- The balanced residue of a number below an even modulus: the two's-complement reading of its pattern (R8). -/
theorem bmod_of_lt (v h : Nat) (hv : v < 2 * h) :
    Int.bmod (v : Int) (2 * h) = if 2 * h ≤ 2 * v then (v : Int) - (2 * h : Nat) else v := by
  rw [Int.bmod_def, Int.emod_eq_of_lt (by omega) (by omega)]
  split <;> split <;> omega

theorem pow256_even (n : Nat) (h : 0 < n) : (256 : Nat) ^ n = 2 * (128 * 256 ^ (n - 1)) := by
  obtain ⟨k, rfl⟩ : ∃ k, n = k + 1 := ⟨n - 1, by omega⟩
  rw [Nat.pow_succ]; simp; ring

theorem pow256_le (n : Nat) (h : n ≤ 8) : (256 : Nat) ^ n ≤ 2 ^ 64 := by
  calc (256 : Nat) ^ n ≤ 256 ^ 8 := Nat.pow_le_pow_right (by decide) h
    _ = 2 ^ 64 := by decide

theorem orderedValue_lt (bs : List Byte) (bo : ByteOrder) : orderedValue bs bo < 256 ^ bs.length := by
  cases bo
  · exact leValue_lt bs
  · exact beValue_lt bs

/-- `reconstruct` is the number of the bytes, read as two's complement for a signed target (R121). -/
theorem reconstruct_eq (bs : List Byte) (bo : ByteOrder) (signed : Bool) (h0 : bs ≠ []) (h8 : bs.length ≤ 8) :
    reconstruct bs bo signed =
      BitVec.ofInt 64 (if signed then Int.bmod (orderedValue bs bo) (256 ^ bs.length) else orderedValue bs bo) := by
  have hlt := orderedValue_lt bs bo
  have htop := topByte_iff bs bo h0
  have heven := pow256_even bs.length (List.length_pos_iff.2 h0)
  have hle := pow256_le bs.length h8
  have hpow : (2 : Nat) ^ (8 * bs.length) = 256 ^ bs.length := by rw [Nat.pow_mul]
  unfold reconstruct wordOfNat
  rw [hpow]
  generalize orderedValue bs bo = v at *
  generalize (256 : Nat) ^ bs.length = m at *
  generalize 128 * 256 ^ (bs.length - 1) = h at *
  subst heven
  cases signed with
  | false => simp
  | true =>
    simp only [true_and, if_true, htop, bmod_of_lt v h hlt]
    split
    · apply BitVec.eq_of_toInt_eq
      rw [BitVec.toInt_ofInt, BitVec.toInt_ofNat']
      have : ((v + (2 ^ 64 - 2 * h) : Nat) : Int) = (v : Int) - (2 * h : Nat) + (2 ^ 64 : Nat) := by omega
      rw [this, Int.add_bmod_right]
    · simp

/-- What the encoder's loop writes: at least one group, no more than the value needs, at most `fuel + 1` of them. -/
theorem lebEncodeLoop_length (fuel u : Nat) (h : u < 128 ^ (fuel + 1)) :
    1 ≤ (lebEncodeLoop fuel u).length ∧ (lebEncodeLoop fuel u).length ≤ fuel + 1 ∧
    u < 128 ^ (lebEncodeLoop fuel u).length ∧
    ((lebEncodeLoop fuel u).length = 1 ∨ 128 ^ ((lebEncodeLoop fuel u).length - 1) ≤ u) := by
  induction fuel generalizing u with
  | zero => simpa [lebEncodeLoop] using h
  | succ k ih =>
    unfold lebEncodeLoop
    split
    · simp; omega
    next hne =>
      obtain ⟨h1, h2, h3, h4⟩ := ih (u / 128) (by rw [Nat.pow_succ] at h; omega)
      simp only [List.length_cons, Nat.add_sub_cancel]
      refine ⟨by omega, by omega, by rw [Nat.pow_succ]; omega, .inr ?_⟩
      generalize (lebEncodeLoop k (u / 128)).length = n at *
      obtain rfl | h4 := h4
      · simp; omega
      · obtain ⟨j, rfl⟩ : ∃ j, n = j + 1 := ⟨n - 1, by omega⟩
        rw [Nat.pow_succ]; simp at h4; omega

/-- Byte i of the encoding: the i-th 7-bit group, bit 7 set in every byte but the last (R142). -/
theorem lebEncodeLoop_byte (fuel u i : Nat) (hi : i < (lebEncodeLoop fuel u).length) :
    byteAt (lebEncodeLoop fuel u) i =
      u / 128 ^ i % 128 + (if i + 1 < (lebEncodeLoop fuel u).length then 128 else 0) := by
  induction fuel generalizing u i with
  | zero =>
    simp [lebEncodeLoop] at hi ⊢
    subst hi; simp [byteAt]; omega
  | succ k ih =>
    unfold lebEncodeLoop at hi ⊢
    split at hi
    next h => simp at hi; subst hi; simp [byteAt, h]; omega
    next h =>
      rw [if_neg h]
      cases i with
      | zero =>
        have : 0 < (lebEncodeLoop k (u / 128)).length := by
          unfold lebEncodeLoop; split <;> (try split) <;> simp
        simp [byteAt, this]; omega
      | succ j =>
        have := ih (u / 128) j (by simpa using hi)
        simpa [byteAt, Nat.div_div_eq_div_mul, Nat.pow_succ, Nat.mul_comm] using this

/-- The decoder's loop undoes the encoder's, whatever bytes follow (R145). -/
theorem lebDecodeLoop_encode (fuel u i acc : Nat) (t : List Byte) (h : u < 128 ^ (fuel + 1)) :
    lebDecodeLoop (lebEncodeLoop fuel u ++ t) i acc =
      .ok (acc + u * 2 ^ (7 * i), i + (lebEncodeLoop fuel u).length) := by
  have hpow : ∀ i, (2 : Nat) ^ (7 * (i + 1)) = 128 * 2 ^ (7 * i) := by
    intro i; rw [Nat.mul_add, Nat.pow_add]; ring
  induction fuel generalizing u i acc with
  | zero =>
    have hu : u < 128 := by simpa using h
    simp [lebEncodeLoop, lebDecodeLoop, Nat.mod_eq_of_lt hu, Nat.mod_eq_of_lt (show u < 256 by omega), hu]
  | succ k ih =>
    unfold lebEncodeLoop
    split
    next h0 =>
      have hu : u < 128 := by omega
      simp [lebDecodeLoop, Nat.mod_eq_of_lt hu, Nat.mod_eq_of_lt (show u < 256 by omega), hu]
    next h0 =>
      have hb : (BitVec.ofNat 8 (u % 128 + 128) : Byte).toNat = u % 128 + 128 := by simp; omega
      simp only [List.cons_append, lebDecodeLoop, hb, if_neg (show ¬ u % 128 + 128 < 128 by omega)]
      rw [ih (u / 128) (i + 1) _ (by rw [Nat.pow_succ] at h; omega), hpow]
      congr 2
      · have : u = u % 128 + 128 * (u / 128) := (Nat.mod_add_div u 128).symm
        conv_rhs => rw [this]
        rw [Nat.add_mod_right, Nat.mod_mod]; ring
      · simp; omega

/-- A digit sum with its lowest digit split off. -/
theorem digitSum_succ_left (base : Nat) (d : Nat → Nat) (n : Nat) :
    digitSum base d (n + 1) = d 0 + base * digitSum base (fun i => d (i + 1)) n := by
  induction n with
  | zero => simp [digitSum]
  | succ k ih => rw [digitSum, ih, digitSum, Nat.pow_succ]; ring

/-- The decoder's loop on any input with a last group: the groups up to it, summed (R143). -/
theorem lebDecodeLoop_eq (bs : List Byte) (n i acc : Nat) (hn : n < bs.length) (hpre : ∀ j < n, 128 ≤ byteAt bs j)
    (hlast : byteAt bs n < 128) :
    lebDecodeLoop bs i acc =
      .ok (acc + digitSum 128 (fun j => byteAt bs j % 128) (n + 1) * 2 ^ (7 * i), i + (n + 1)) := by
  have hpow : (2 : Nat) ^ (7 * (i + 1)) = 128 * 2 ^ (7 * i) := by rw [Nat.mul_add, Nat.pow_add]; ring
  induction n generalizing bs i acc with
  | zero =>
    cases bs with
    | nil => simp at hn
    | cons b rest =>
      have hb : b.toNat < 128 := hlast
      simp [lebDecodeLoop, hb, digitSum, byteAt]
  | succ k ih =>
    cases bs with
    | nil => simp at hn
    | cons b rest =>
      have hb : 128 ≤ b.toNat := hpre 0 (by omega)
      simp only [lebDecodeLoop, if_neg (show ¬ b.toNat < 128 by omega)]
      rw [ih rest (i + 1) _ (by simpa using hn) (fun j hj => hpre (j + 1) (by omega)) hlast
        (by rw [Nat.mul_add, Nat.pow_add]; ring), digitSum_succ_left 128 _ (k + 1), hpow]
      congr 2
      · change _ = acc + (b.toNat % 128 + 128 * digitSum 128 (fun j => byteAt rest j % 128) (k + 1)) * 2 ^ (7 * i)
        ring
      · omega

/-- The decoder's loop on an input with no last group (R143). -/
theorem lebDecodeLoop_unterminated (bs : List Byte) (i acc : Nat) (h : ∀ j < bs.length, 128 ≤ byteAt bs j) :
    lebDecodeLoop bs i acc = .error .insufficientData := by
  induction bs generalizing i acc with
  | nil => rfl
  | cons b rest ih =>
    have hb : 128 ≤ b.toNat := h 0 (by simp)
    simp only [lebDecodeLoop, if_neg (show ¬ b.toNat < 128 by omega)]
    exact ih _ _ fun j hj => h (j + 1) (by simpa using hj)

theorem leb128Encode_bound (u : Nat) (h : u < 2 ^ 64) : u < 128 ^ (9 + 1) :=
  Nat.lt_of_lt_of_le h (by decide)

/-- The round trip of R145, under either policy. -/
theorem leb128Decode_encode (policy : NoncanonPolicy) (u : Nat) (t : List Byte) (h : u < 2 ^ 64) :
    leb128Decode policy (leb128Encode u ++ t) = .ok (u, (leb128Encode u).length) := by
  have hloop := lebDecodeLoop_encode 9 u 0 0 t (leb128Encode_bound u h)
  simp only [leb128Decode, leb128Encode] at hloop ⊢
  rw [hloop]
  simp
  omega

/-- A payload is at most ten bytes, and at least one (R144, R173). -/
theorem leb128Encode_length (u : Nat) (h : u < 2 ^ 64) :
    1 ≤ (leb128Encode u).length ∧ (leb128Encode u).length ≤ 10 :=
  have := lebEncodeLoop_length 9 u (leb128Encode_bound u h)
  ⟨this.1, this.2.1⟩

/-- Zigzag never overflows and is undone (R140, R141). -/
theorem unzz_zz (v : Int) : unzz (zz v) = v := by unfold zz unzz; split <;> split <;> omega

theorem zz_lt (v : Int) (b : Nat) (h : -2 ^ b ≤ v ∧ v < 2 ^ b) : zz v < 2 ^ (b + 1) := by
  have : (2 : Int) ^ b = ((2 ^ b : Nat) : Int) := by push_cast; rfl
  rw [this] at h
  have h2 : (2 : Nat) ^ (b + 1) = 2 * 2 ^ b := by rw [Nat.pow_succ]; ring
  unfold zz; split <;> omega

/-- A prefix is 8 bytes in Fixed mode, 1, 3, 5 or 9 in Variable mode (R100). -/
theorem lpEncode_length (len : Nat) (cfg : Cfg) :
    1 ≤ (lpEncode len cfg).length ∧ (lpEncode len cfg).length ≤ 9 := by
  unfold lpEncode lpEncodeVariable
  split
  · split <;> simp
  · repeat' split
    all_goals simp

end Sys2Proof.Machine
end

