-- ==== Sys2Proof/Laws/PerInstr.lean ====
section
/-! SUPPORT. Per instruction: the encoder's word is in its row of the opcode map, by the row's match and mask
(spec 30_encoding.md R73). -/

namespace Sys2Proof.Laws

/-- The mask of each row of R73: every bit, but for the IMM8 of CFG.FIXW. -/
def rowMask (i : Instr) : Half :=
  match i with
  | .cfgFixw _ => 0xFFFF00FF
  | .cfgStd | .cfgBe | .cfgVar | .cfgLimit | .zzEnc32 | .zzEnc64 | .lebEnc | .zzDec32 => 0xFFFFFFFF
  | .zzDec64 | .lebDec | .lpEnc | .blobSer | .lpDec | .blobDes | .fxEnc | .fxDecs => 0xFFFFFFFF
  | .fxDecu | .serI32 | .serU32 | .serI64 | .desI32 | .desU32 | .desI64 => 0xFFFFFFFF

/-- The match value of each row of R73. -/
def rowMatch (i : Instr) : Half :=
  match i with
  | .cfgStd => 0x00000010
  | .cfgBe => 0x00000011
  | .cfgFixw _ => 0x00000012
  | .cfgVar => 0x00000013
  | .cfgLimit => 0x00000014
  | .zzEnc32 => 0x00000020
  | .zzEnc64 => 0x00000021
  | .lebEnc => 0x00000022
  | .zzDec32 => 0x00000030
  | .zzDec64 => 0x00000031
  | .lebDec => 0x00000032
  | .lpEnc => 0x00000040
  | .blobSer => 0x00000041
  | .lpDec => 0x00000050
  | .blobDes => 0x00000051
  | .fxEnc => 0x00000060
  | .fxDecs => 0x00000061
  | .fxDecu => 0x00000062
  | .serI32 => 0x00000070
  | .serU32 => 0x00000071
  | .serI64 => 0x00000072
  | .desI32 => 0x00000078
  | .desU32 => 0x00000079
  | .desI64 => 0x0000007A

/-- The encoder's word selects the instruction's own row. -/
def EncodeRow.Statement (i : Instr) : Prop := i.wellFormed = true → encode i &&& rowMask i = rowMatch i

theorem fixw_word_in_row : ∀ v : BitVec 8, ((0#16 ++ (v ++ 0x12#8) : Half) &&& 0xFFFF00FF) = 0x12 := by decide

theorem EncodeRow.cfgStd : EncodeRow.Statement .cfgStd := by unfold EncodeRow.Statement; decide
theorem EncodeRow.cfgBe : EncodeRow.Statement .cfgBe := by unfold EncodeRow.Statement; decide
theorem EncodeRow.cfgFixw (n : Nat) : EncodeRow.Statement (.cfgFixw n) := fun _ => fixw_word_in_row _
theorem EncodeRow.cfgVar : EncodeRow.Statement .cfgVar := by unfold EncodeRow.Statement; decide
theorem EncodeRow.cfgLimit : EncodeRow.Statement .cfgLimit := by unfold EncodeRow.Statement; decide
theorem EncodeRow.zzEnc32 : EncodeRow.Statement .zzEnc32 := by unfold EncodeRow.Statement; decide
theorem EncodeRow.zzEnc64 : EncodeRow.Statement .zzEnc64 := by unfold EncodeRow.Statement; decide
theorem EncodeRow.lebEnc : EncodeRow.Statement .lebEnc := by unfold EncodeRow.Statement; decide
theorem EncodeRow.zzDec32 : EncodeRow.Statement .zzDec32 := by unfold EncodeRow.Statement; decide
theorem EncodeRow.zzDec64 : EncodeRow.Statement .zzDec64 := by unfold EncodeRow.Statement; decide
theorem EncodeRow.lebDec : EncodeRow.Statement .lebDec := by unfold EncodeRow.Statement; decide
theorem EncodeRow.lpEnc : EncodeRow.Statement .lpEnc := by unfold EncodeRow.Statement; decide
theorem EncodeRow.blobSer : EncodeRow.Statement .blobSer := by unfold EncodeRow.Statement; decide
theorem EncodeRow.lpDec : EncodeRow.Statement .lpDec := by unfold EncodeRow.Statement; decide
theorem EncodeRow.blobDes : EncodeRow.Statement .blobDes := by unfold EncodeRow.Statement; decide
theorem EncodeRow.fxEnc : EncodeRow.Statement .fxEnc := by unfold EncodeRow.Statement; decide
theorem EncodeRow.fxDecs : EncodeRow.Statement .fxDecs := by unfold EncodeRow.Statement; decide
theorem EncodeRow.fxDecu : EncodeRow.Statement .fxDecu := by unfold EncodeRow.Statement; decide
theorem EncodeRow.serI32 : EncodeRow.Statement .serI32 := by unfold EncodeRow.Statement; decide
theorem EncodeRow.serU32 : EncodeRow.Statement .serU32 := by unfold EncodeRow.Statement; decide
theorem EncodeRow.serI64 : EncodeRow.Statement .serI64 := by unfold EncodeRow.Statement; decide
theorem EncodeRow.desI32 : EncodeRow.Statement .desI32 := by unfold EncodeRow.Statement; decide
theorem EncodeRow.desU32 : EncodeRow.Statement .desU32 := by unfold EncodeRow.Statement; decide
theorem EncodeRow.desI64 : EncodeRow.Statement .desI64 := by unfold EncodeRow.Statement; decide

end Sys2Proof.Laws
end

