-- ==== Sys2Proof/Tests/Slice0.lean ====
section
/-! SUPPORT. The model's own tests: the well-formedness smoke, words written out from the opcode map (spec 30_encoding.md
R73), single commands against the vectors of 95_test_vectors.md, and for each obligation with hypotheses a state and
operands that meet them together. -/

namespace Sys2Proof.Tests

open Sys2Proof.Machine

/-- The smallest legal block (00_scope.md R6) after reset. -/
def start : State :=
  { State.reset with params := { Config.referenceParams with inCap := 27, outCap := 36 } }

/-- A state with CTRL, LIMIT, VAL and the input bytes set. -/
def setup (ctrl : Half) (limit val : Word) (bs : List Byte) : State :=
  { start with ctrl := ctrl, limit := limit, val := val, inLen := BitVec.ofNat 64 bs.length,
               inBuf := Memory.writeRange [] 0 bs }

/-- The command ends in a next state with a property. -/
def endsIn (o : Host.Outcome State Fault Refusal) (p : State → Bool) : Bool :=
  match o with
  | .next t => p t
  | .fault _ => false
  | .refused _ => false

theorem endsIn_spec {o : Host.Outcome State Fault Refusal} {p : State → Bool} (h : endsIn o p = true) :
    ∃ t, o = .next t ∧ p t = true := by
  cases o with
  | next t => exact ⟨t, rfl, h⟩
  | fault r => cases h
  | refused r => cases h

/-- ERR, RES, CNT and the bytes of `OUT[0 .. OUT_LEN)` after a command, as a vector of 95_test_vectors.md lists them. -/
def gives (o : Host.Outcome State Fault Refusal) (err res cnt : Nat) (out : List Byte) : Bool :=
  endsIn o fun t => t.errCode == err && t.res.toNat == res && t.cnt.toNat == cnt &&
    t.outBuf.readRange 0 t.outLen.toNat == some out

/-- The command is refused for unwritten input. -/
def isUnwritten (o : Host.Outcome State Fault Refusal) : Bool :=
  match o with
  | .refused .unwrittenInput => true
  | _ => false

-- Well-formedness: the one check, and a term it refuses.
theorem test_wellFormed_refuses_width_256 : (Instr.cfgFixw 256).wellFormed = false := by decide
theorem test_wellFormed_accepts_width_255 : (Instr.cfgFixw 255).wellFormed = true := by decide

-- One word per row, written from the opcode map of 30_encoding.md R73 (OP in bits 7:0, IMM8 in bits 15:8).
theorem test_decode_configuration :
    [0x00000010, 0x00000011, 0x00000812, 0x00000013, 0x00000014].map (decodeTableWord 32) =
      [some .cfgStd, some .cfgBe, some (.cfgFixw 8), some .cfgVar, some .cfgLimit] := by decide
theorem test_decode_varint :
    [0x00000020, 0x00000021, 0x00000022, 0x00000030, 0x00000031, 0x00000032].map (decodeTableWord 32) =
      [some .zzEnc32, some .zzEnc64, some .lebEnc, some .zzDec32, some .zzDec64, some .lebDec] := by decide
theorem test_decode_length_prefix :
    [0x00000040, 0x00000041, 0x00000050, 0x00000051].map (decodeTableWord 32) =
      [some .lpEnc, some .blobSer, some .lpDec, some .blobDes] := by decide
theorem test_decode_byte_order :
    [0x00000060, 0x00000061, 0x00000062].map (decodeTableWord 32) = [some .fxEnc, some .fxDecs, some .fxDecu] := by
  decide
theorem test_decode_integer :
    [0x00000070, 0x00000071, 0x00000072, 0x00000078, 0x00000079, 0x0000007A].map (decodeTableWord 32) =
      [some .serI32, some .serU32, some .serI64, some .desI32, some .desU32, some .desI64] := by decide
-- The illegal words of 30_encoding.md R74: OP not in the map, RSV set, IMM8 set outside CFG.FIXW.
theorem test_decode_illegal :
    [0x00000000, 0x0000007B, 0x00010010, 0x80000412, 0x00000110, 0x000000FF].map (decodeTableWord 32) =
      [none, none, none, none, none, none] := by decide

-- A word that the host places runs as the first command after reset (10_state.md R23; vector CF2).
theorem test_first_word_runs :
    endsIn (step (State.reset.withFetchWord 32 0x11)) (fun t => t.cmd == 0x11 && t.ctrl == 0xD) = true := by decide

-- Vectors of 95_test_vectors.md section 2, by id.
theorem test_lpEnc_LE3 : gives (exec .lpEnc (setup 0xE 65536 251 [])) 0 0 0 [0xFB, 0xFB, 0x00] = true := by decide
theorem test_lpEnc_LE12 :
    gives (exec .lpEnc (setup 0x0 65536 (-1) [])) 0 0 0 [0xFF, 0xFF, 0xFF, 0xFF, 0xFF, 0xFF, 0xFF, 0xFF] = true := by
  decide
theorem test_lpDec_LD10 :
    gives (exec .lpDec (setup 0xE 65536 0 [0xFE, 1, 0, 0, 0, 0, 0, 0, 0, 0, 0, 0, 0, 0, 0, 0, 0])) 0 1 17 [] = true := by
  decide
theorem test_lpDec_LD19 :
    gives (exec .lpDec (setup 0xD 65536 0 [5, 0, 0, 0, 0, 0, 0, 0, 9])) 0 0x500000000000000 8 [] = true := by decide
theorem test_blobSer_BS5 :
    gives (exec .blobSer (setup 0xD 65536 0 [0xAA])) 0 0 0 [0, 0, 0, 0, 0, 0, 0, 1, 0xAA] = true := by decide
theorem test_blobSer_BS6 : gives (exec .blobSer (setup 0xC 4 0 [1, 2, 3, 4, 5])) 1 0 0 [] = true := by decide
theorem test_blobDes_BD13 :
    gives (exec .blobDes (setup 0xE 65536 0 [0xFB, 0x02, 0x00, 0xAA, 0xBB])) 0 2 5 [0xAA, 0xBB] = true := by decide
theorem test_blobDes_BD17 :
    gives (exec .blobDes (setup 0xE (-1) 0 [0xFD, 0, 0, 0, 0, 0, 0, 0, 0x80])) 4 0 0 [] = true := by decide
theorem test_fxEnc_FE4 : gives (exec .fxEnc (setup 0x5 65536 0x0102030405060708 [])) 0 0 0 [0x07, 0x08] = true := by
  decide
theorem test_fxDecs_FD5 :
    gives (exec .fxDecs (setup 0x5 65536 0 [0xFE, 0xFF])) 0 0xFFFFFFFFFFFFFEFF 2 [] = true := by decide
theorem test_fxDecu_FD11 :
    gives (exec .fxDecu (setup 0x9 65536 0 [0x80, 0x00, 0x00, 0x00])) 0 0x80000000 4 [] = true := by decide
theorem test_zzEnc32_ZE8 : gives (exec .zzEnc32 (setup 0xC 65536 0x123456780000002A [])) 0 0x54 0 [] = true := by decide
theorem test_zzEnc64_ZE13 :
    gives (exec .zzEnc64 (setup 0xC 65536 0x8000000000000000 [])) 0 0xFFFFFFFFFFFFFFFF 0 [] = true := by decide
theorem test_zzDec32_ZD6 :
    gives (exec .zzDec32 (setup 0xC 65536 0xFFFFFFFF [])) 0 0xFFFFFFFF80000000 0 [] = true := by decide
theorem test_zzDec32_ZD7 : gives (exec .zzDec32 (setup 0xC 65536 0x100000000 [])) 7 0 0 [] = true := by decide
theorem test_zzDec64_ZD10 :
    gives (exec .zzDec64 (setup 0xC 65536 599 [])) 0 0xFFFFFFFFFFFFFED4 0 [] = true := by decide
theorem test_lebEnc_VE8 : gives (exec .lebEnc (setup 0xC 65536 624485 [])) 0 0 0 [0xE5, 0x8E, 0x26] = true := by decide
theorem test_lebEnc_VE12 :
    gives (exec .lebEnc (setup 0xC 65536 (-1) [])) 0 0 0
      [0xFF, 0xFF, 0xFF, 0xFF, 0xFF, 0xFF, 0xFF, 0xFF, 0xFF, 0x01] = true := by decide
theorem test_lebDec_VD12 :
    gives (exec .lebDec (setup 0xC 65536 0 [0xFF, 0xFF, 0xFF, 0xFF, 0xFF, 0xFF, 0xFF, 0xFF, 0xFF, 0x02])) 7 0 0 [] =
      true := by decide
theorem test_lebDec_VD14 :
    gives (exec .lebDec (setup 0xC 65536 0 [0xFF, 0xFF, 0xFF, 0xFF, 0xFF, 0xFF, 0xFF, 0xFF, 0xFF, 0xFF])) 2 0 0 [] =
      true := by decide
theorem test_serI32_IS1 :
    gives (exec .serI32 (setup 0x0 65536 (-42) [])) 0 0 0 [1, 0, 0, 0, 0, 0, 0, 0, 0xD6] = true := by decide
theorem test_serI32_IS23 : gives (exec .serI32 (setup 0xE 1 64 [])) 1 0 0 [] = true := by decide
theorem test_serU32_IS13 :
    gives (exec .serU32 (setup 0xE 65536 0xFFFFFFFF [])) 0 0 0 [0x05, 0xFF, 0xFF, 0xFF, 0xFF, 0x0F] = true := by decide
theorem test_serI64_IS19 :
    gives (exec .serI64 (setup 0x9 65536 0x0102030405060708 [])) 0 0 0
      [0, 0, 0, 0, 0, 0, 0, 4, 5, 6, 7, 8] = true := by decide
theorem test_desI32_ID8 :
    gives (exec .desI32 (setup 0xC 65536 0 [8, 0, 0, 0, 0, 0, 0, 0, 0, 0, 0, 0x80, 1, 0, 0, 0])) 0 0xFFFFFFFF80000000 16
      [] = true := by decide
theorem test_desI32_ID13 :
    gives (exec .desI32 (setup 0xE 65536 0 [5, 0x80, 0x80, 0x80, 0x80, 0x10])) 7 0 0 [] = true := by decide
theorem test_desU32_ID2 :
    gives (exec .desU32 (setup 0x0 65536 0 [1, 0, 0, 0, 0, 0, 0, 0, 0xD6])) 0 0xD6 9 [] = true := by decide
theorem test_desI64_ID15 :
    gives (exec .desI64 (setup 0xE 65536 0 [5, 0x80, 0x80, 0x80, 0x80, 0x10])) 0 0x80000000 6 [] = true := by decide
theorem test_cfgStd_CF4 : endsIn (exec .cfgStd (setup 0xF 7 0 [])) (fun t => t.ctrl == 0xC && t.limit == 65536) = true := by
  decide
theorem test_cfgBe_CF2 : endsIn (exec .cfgBe start) (fun t => t.ctrl == 0xD && t.limit == 65536) = true := by decide
theorem test_cfgVar_CF3 : endsIn (exec .cfgVar start) (fun t => t.ctrl == 0xE && t.limit == 65536) = true := by decide
theorem test_cfgFixw_CF6 : endsIn (exec (.cfgFixw 2) start) (fun t => t.ctrl == 0x4 && t.errCode == 0) = true := by decide
theorem test_cfgFixw_3_raises :
    endsIn (exec (.cfgFixw 3) start) (fun t => t.ctrl == 0xC && t.errCode == 8) = true := by decide
theorem test_cfgLimit : endsIn (exec .cfgLimit (setup 0xC 65536 4 [])) (fun t => t.limit == 4) = true := by decide
-- 20_memory.md R53: a byte below IN_LEN without its written mark.
theorem test_unwritten_input_refused : isUnwritten (exec .lebDec { start with inLen := 1 }) = true := by decide

-- Witnesses: for each obligation with hypotheses, operands and states that meet them together, one for each clause.

/-- A state with one host access to come. -/
def queued (x : HostAccess) : State := { start with hostQueue := [x] }

/-- A state with three bytes of IN and two of OUT written, CTRL at Variable. -/
def busy : State :=
  { setup 0xE 65536 7 [0x02, 0xAA, 0xBB] with outBuf := Memory.writeRange [] 0 [0x11, 0x22], outLen := 2, res := 9, cnt := 3 }

theorem test_witness_DecodeOfEncode : ∀ i ∈ [Instr.cfgFixw 0, .cfgFixw 255, .desI64], i.wellFormed = true := by decide
theorem test_witness_DecodedWord : decode 0x0000FF12 = .ok (.cfgFixw 255) ∧ decode 0x00000010 = .ok .cfgStd := by decide
-- Illegal by (a), by (b), by (c) of 30_encoding.md R74, and legal.
theorem test_witness_IllegalWord :
    (queued (.writeReg 0 32 0x15)).hostQueue = .writeReg 0 32 0x15 :: [] ∧
    decode 0x15 = .error .unassignedOpcode ∧ decode 0x00010010 = .error .reservedBitsSet ∧
    decode 0x00000110 = .error .immediateSet ∧ decode 0x0000FF12 = .ok (.cfgFixw 255) := by decide
theorem test_witness_StepRuns :
    (queued (.writeReg 0 32 0xFFFFFFFF00000412)).hostQueue = .writeReg 0 32 0xFFFFFFFF00000412 :: [] ∧
    decode ((0xFFFFFFFF00000412 : Word).extractLsb' 0 32) = .ok (.cfgFixw 4) ∧ (Instr.cfgFixw 4).wellFormed = true := by
  decide
theorem test_witness_Idle : start.hostQueue = [] := by decide
theorem test_witness_EveryCommandEnds :
    (readsInput .lebDec = true ∧ ∃ a < ({ start with inLen := 1 } : State).inLen.toNat,
      ({ start with inLen := 1 } : State).inBuf.read a = none) ∧
    ¬ (readsInput .lebDec = true ∧ ∃ a < busy.inLen.toNat, busy.inBuf.read a = none) := by decide
-- A command that succeeds and one that raises; also for the frames of CommandsLeaveTheHostsStateAlone.
theorem test_witness_ErrorWrites :
    (∃ t, exec .lebEnc busy = .next t ∧ (t.status == 0) = true) ∧
    ∃ t, exec (.cfgFixw 3) busy = .next t ∧ (t.status == 8) = true :=
  ⟨endsIn_spec (by decide), endsIn_spec (by decide)⟩
theorem test_witness_InvalidMarker :
    ∃ t, exec .lpDec (setup 0xE 65536 0 [0xFF]) = .next t ∧ (t.errCode == 6) = true := endsIn_spec (by decide)
-- A command that writes nothing but the configuration, and one that writes nothing but OUT.
theorem test_witness_OnlyTheListed :
    (∃ t, exec .cfgBe busy = .next t ∧ (writesRes .cfgBe || writesCnt .cfgBe || writesOut .cfgBe) = false) ∧
    ∃ t, exec .lebEnc busy = .next t ∧ writesConfig .lebEnc = false :=
  ⟨⟨_, rfl, rfl⟩, ⟨_, rfl, rfl⟩⟩
theorem test_witness_OnlyConfiguration :
    (∃ t, step (queued (.writeReg 0 32 0x11)) = .next t ∧ (t.ctrl != start.ctrl) = true) ∧
    ∃ t, step { busy with hostQueue := [.reset] } = .next t ∧ (t.ctrl != busy.ctrl) = true :=
  ⟨endsIn_spec (by decide), endsIn_spec (by decide)⟩
theorem test_witness_OnlyStdAndBe :
    (∃ t, exec .cfgBe start = .next t ∧ (t.cfg.byteOrder != start.cfg.byteOrder) = true) ∧
    ∃ t, exec .cfgStd (setup 0xD 1 0 []) = .next t ∧ (t.cfg.byteOrder != (setup 0xD 1 0 []).cfg.byteOrder) = true :=
  ⟨endsIn_spec (by decide), endsIn_spec (by decide)⟩
theorem test_witness_HiddenState :
    let s' : State := { busy with cmd := 5, status := 4, res := 0, cnt := 0, outLen := 0, outBuf := [], resetEpoch := 3 }
    (s'.ctrl = busy.ctrl ∧ s'.limit = busy.limit ∧ s'.val = busy.val ∧ s'.inLen = busy.inLen ∧ s'.inBuf = busy.inBuf ∧
      s'.params = busy.params) ∧ ∃ t, exec .blobDes busy = .next t ∧ (t.status == 0) = true :=
  ⟨by decide, endsIn_spec (by decide)⟩
theorem test_witness_OutputFits :
    (∃ t, exec .blobSer busy = .next t ∧ (t.status == 0) = true) ∧
    ∃ t, exec .blobDes busy = .next t ∧ (t.status == 0) = true := ⟨endsIn_spec (by decide), endsIn_spec (by decide)⟩
theorem test_witness_Inv :
    busy.Inv ∧ ∃ t, step { busy with hostQueue := [.writeReg 0 32 0x51] } = .next t ∧ (t.outLen == 2) = true :=
  ⟨by decide, endsIn_spec (by decide)⟩
theorem test_witness_CfgStd :
    ∃ t, exec .cfgStd (setup 0xD 1 0 []) = .next t ∧
      ((setup 0xD 1 0 []).cfg.byteOrder == .bigEndian && t.cfg.byteOrder == .littleEndian) = true :=
  endsIn_spec (by decide)
theorem test_witness_CfgFixw :
    ((1, 0) : Nat × Nat) ∈ [(1, 0), (2, 1), (4, 2), (8, 3)] ∧ (0 : Nat) ∉ [1, 2, 4, 8] ∧ (9 : Nat) ∉ [1, 2, 4, 8] := by
  decide
theorem test_witness_CfgVar :
    (busy.cfg.mode = .variableLen ∧ (0x2 : Half).toNat % 4 = busy.ctrl.toNat % 4) ∧
    ∃ t, exec .blobDes busy = .next t ∧ (t.ctrl == 0xE) = true := ⟨by decide, endsIn_spec (by decide)⟩
-- LIMIT 0: a non-empty input; a record that declares 1 and one that declares 0 and fills its input.
theorem test_witness_CfgLimit :
    ((setup 0xC 0 0 [5]).limit = 0 ∧ (setup 0xC 0 0 [5]).InputIs [5]) ∧
    ((setup 0xE 0 0 [1, 7]).InputIs [1, 7] ∧ lpDecode [1, 7] (setup 0xE 0 0 [1, 7]).cfg = .ok (1, 1)) ∧
    ((setup 0xE 0 0 [0]).InputIs [0] ∧ lpDecode [0] (setup 0xE 0 0 [0]).cfg = .ok (0, 1)) := by decide
theorem test_witness_CfgLimit_ends :
    ((setup 0xE 0 0 [0]).limit = 0 ∧ ∃ t, exec .desI64 (setup 0xE 0 0 [0]) = .next t ∧ (t.errCode == 2) = true) ∧
    (setup 0xE (-1) 0 [0xFD, 0, 0, 0, 0, 0, 0, 0, 0x80]).limit.toNat = 2 ^ 64 - 1 ∧
    ∃ t, exec .desU32 (setup 0xE (-1) 0 [0xFD, 0, 0, 0, 0, 0, 0, 0, 0x80]) = .next t ∧ (t.errCode == 4) = true :=
  ⟨⟨by decide, endsIn_spec (by decide)⟩, by decide, endsIn_spec (by decide)⟩
theorem test_witness_ZzDec32 :
    (setup 0xC 1 0xFFFFFFFF []).val.toNat ≤ 0xFFFFFFFF ∧ 0xFFFFFFFF < (setup 0xC 1 0x100000000 []).val.toNat := by decide
theorem test_witness_Zigzag :
    ∃ t s' : State, exec .zzEnc64 busy = .next t ∧ exec .zzEnc32 busy = .next t ∧ s'.val = t.res :=
  ⟨_, { busy with val := 14 }, rfl, rfl, by decide⟩
-- A minimal varint of one byte, a redundant one, and one of 2^64.
theorem test_witness_LebDec :
    ((setup 0xC 1 0 [0x7F, 0x55]).InputIs [0x7F, 0x55] ∧ byteAt [0x7F, 0x55] 0 < 128) ∧
    ((setup 0xC 1 0 [0x80, 0x00]).InputIs [0x80, 0x00] ∧ 128 ≤ byteAt [0x80, 0x00] 0 ∧ byteAt [0x80, 0x00] 1 = 0) ∧
    let big : List Byte := [0x80, 0x80, 0x80, 0x80, 0x80, 0x80, 0x80, 0x80, 0x80, 0x02]
    ((setup 0xC 1 0 big).InputIs big ∧ (∀ j < 9, 128 ≤ byteAt big j) ∧ byteAt big 9 < 128 ∧
      digitSum 128 (fun j => byteAt big j % 128) 10 = 2 ^ 64) := by decide
theorem test_witness_LebDecUnterminated :
    (start.InputIs [] ∧ ∀ j < ([] : List Byte).length, 128 ≤ byteAt [] j) ∧
    ((setup 0xC 1 0 [0x80]).InputIs [0x80] ∧ ∀ j < [(0x80 : Byte)].length, 128 ≤ byteAt [0x80] j) := by decide
theorem test_witness_LebRoundTrip :
    leb128Encode 300 = [0xAC, 0x02] ∧ (setup 0xC 1 0 ([0xAC, 0x02] ++ [7])).InputIs ([0xAC, 0x02] ++ [7]) := by decide
theorem test_witness_UpperHalf :
    Instr.serU32 ∈ [Instr.zzEnc32, .serI32, .serU32] ∧
    (0xFFFFFFFF00000007 : Word).extractLsb' 0 32 = busy.val.extractLsb' 0 32 := by decide
-- Both modes; a marker whose 16-byte field is 2^64, and one a byte short.
theorem test_witness_LpDec :
    (start.InputIs [] ∧ start.cfg.mode = .fixed) ∧ (busy.InputIs [0x02, 0xAA, 0xBB] ∧ busy.cfg.mode = .variableLen) ∧
    let big : List Byte := [0xFE, 0, 0, 0, 0, 0, 0, 0, 0, 1, 0, 0, 0, 0, 0, 0, 0]
    ((setup 0xE 1 0 big).InputIs big ∧ numberAt .littleEndian big 1 16 = 2 ^ 64) ∧
    (setup 0xE 1 0 [0xFB, 5]).InputIs [0xFB, 5] := by decide
theorem test_witness_PrefixRoundTrips :
    (2 ^ 64 - 1 < 2 ^ 64) ∧ lpDecode (lpEncode (2 ^ 64 - 1) busy.cfg ++ [1]) busy.cfg = .ok (2 ^ 64 - 1, 9) := by decide
theorem test_witness_BlobSer :
    ((setup 0xC 4 0 [1, 2, 3, 4, 5]).InputIs [1, 2, 3, 4, 5] ∧
      (setup 0xC 4 0 [1, 2, 3, 4, 5]).limit.toNat < [(1 : Byte), 2, 3, 4, 5].length) ∧
    ((setup 0xC 5 0 [1, 2, 3, 4, 5]).InputIs [1, 2, 3, 4, 5] ∧
      [(1 : Byte), 2, 3, 4, 5].length ≤ (setup 0xC 5 0 [1, 2, 3, 4, 5]).limit.toNat) := by decide
-- Empty; a prefix error; a declared length above LIMIT, above HOST_SIZE_MAX, a short, a long and an exact record.
theorem test_witness_BlobDes :
    start.InputIs [] ∧
    ((setup 0xE 9 0 [0xFF]).InputIs [0xFF] ∧ lpDecode [0xFF] busy.cfg = .error .invalidMarker) ∧
    ((setup 0xE 1 0 [2, 1, 1]).InputIs [2, 1, 1] ∧ lpDecode [2, 1, 1] busy.cfg = .ok (2, 1)) ∧
    let big : List Byte := [0xFD, 0, 0, 0, 0, 0, 0, 0, 0x80]
    ((setup 0xE (-1) 0 big).InputIs big ∧ lpDecode big busy.cfg = .ok (2 ^ 63, 9) ∧ start.params.hostSizeMax < 2 ^ 63) ∧
    ((setup 0xE 2 0 [2, 1]).InputIs [2, 1] ∧ lpDecode [2, 1] busy.cfg = .ok (2, 1)) ∧
    ((setup 0xE 2 0 [2, 1, 1, 1]).InputIs [2, 1, 1, 1] ∧ lpDecode [2, 1, 1, 1] busy.cfg = .ok (2, 1)) ∧
    (busy.InputIs [0x02, 0xAA, 0xBB] ∧ lpDecode [0x02, 0xAA, 0xBB] busy.cfg = .ok (2, 1)) := by decide
theorem test_witness_BlobRoundTrip :
    (setup 0xE 3 0 [0x02, 0xAA, 0xBB]).InputIs [0x02, 0xAA, 0xBB] ∧
    [(0x02 : Byte), 0xAA, 0xBB].length ≤ (setup 0xE 3 0 [0x02, 0xAA, 0xBB]).limit.toNat ∧
    3 ≤ (setup 0xE 3 0 [0x02, 0xAA, 0xBB]).params.hostSizeMax ∧
    (setup 0xE 3 0 [3, 0x02, 0xAA, 0xBB]).InputIs (lpEncode 3 busy.cfg ++ [0x02, 0xAA, 0xBB]) := by decide
-- Fewer bytes than intWidth, and exactly intWidth bytes.
theorem test_witness_FxDec :
    ((setup 0x4 1 0 [0xFE]).InputIs [0xFE] ∧ [(0xFE : Byte)].length < (setup 0x4 1 0 [0xFE]).cfg.intWidth) ∧
    ((setup 0x4 1 0 [0xFE, 0xFF]).InputIs [0xFE, 0xFF] ∧ (setup 0x4 1 0 [0xFE, 0xFF]).cfg.intWidth = 2) := by decide
theorem test_witness_FixedBytes : (8 : Nat) ∈ [1, 2, 4, 8] ∧ (1 : Nat) ∈ [1, 2, 4, 8] := by decide
-- A payload of 8 bytes, above LIMIT 7 and within LIMIT 8.
theorem test_witness_Ser :
    (setup 0xC 7 1 []).limit.toNat < (intPayload (setup 0xC 7 1 []).val true (setup 0xC 7 1 []).cfg).length ∧
    (intPayload (setup 0xC 8 1 []).val true (setup 0xC 8 1 []).cfg).length ≤ (setup 0xC 8 1 []).limit.toNat := by decide
theorem test_witness_DesPropagate :
    Instr.desU32 ∈ [Instr.desI32, .desU32, .desI64] ∧ (setup 0xE 9 0 [1, 0, 9]).InputIs [1, 0, 9] ∧
    blobDeserialize [1, 0, 9] (setup 0xE 9 0 [1, 0, 9]).cfg start.params.hostSizeMax = .error .trailingBytes := by decide
-- Fixed, width 1: a short payload, an exact one, a longer one.
theorem test_witness_DesFixed :
    (setup 0x0 9 0 [2, 0, 0, 0, 0, 0, 0, 0, 0xD6, 1]).cfg.mode = .fixed ∧
    [([] : List Byte), [0xD6], [0xD6, 1]].map (fun p =>
      decide ((setup 0x0 9 0 (lpEncode p.length start.cfg ++ p)).InputIs (lpEncode p.length start.cfg ++ p) ∧
        blobDeserialize (lpEncode p.length start.cfg ++ p) (setup 0x0 9 0 []).cfg start.params.hostSizeMax =
          .ok (p, p.length))) = [true, true, true] := by decide
-- Variable: an unterminated varint, 2^32, and a varint with a byte after it.
theorem test_witness_DesVariable :
    ((setup 0xE 9 0 [1, 0x80]).InputIs [1, 0x80] ∧ (setup 0xE 9 0 [1, 0x80]).cfg.mode = .variableLen ∧
      blobDeserialize [1, 0x80] (setup 0xE 9 0 []).cfg start.params.hostSizeMax = .ok ([0x80], 1) ∧
      leb128Decode .accept [0x80] = .error .insufficientData) ∧
    ((setup 0xE 9 0 [5, 0x80, 0x80, 0x80, 0x80, 0x10]).InputIs [5, 0x80, 0x80, 0x80, 0x80, 0x10] ∧
      leb128Decode .accept [0x80, 0x80, 0x80, 0x80, 0x10] = .ok (2 ^ 32, 5)) ∧
    ((setup 0xE 9 0 [2, 1, 0x55]).InputIs [2, 1, 0x55] ∧ leb128Decode .accept [1, 0x55] = .ok (1, 1)) := by decide
theorem test_witness_IntegerRoundTrip :
    10 ≤ start.params.hostSizeMax ∧ (∃ t, exec .serI32 (setup 0x0 9 (-42) []) = .next t ∧ (t.status == 0) = true) ∧
    (setup 0x0 9 0 [1, 0, 0, 0, 0, 0, 0, 0, 0xD6]).InputIs [1, 0, 0, 0, 0, 0, 0, 0, 0xD6] :=
  ⟨by decide, endsIn_spec (by decide), by decide⟩
theorem test_witness_ModeSensitive :
    (setup 0xC 16 5 []).cfg.mode = .fixed ∧
    (∃ t, exec .serI32 (setup 0xC 16 5 []) = .next t ∧ (t.status == 0) = true) ∧
    ∃ t, exec .serI32 { setup 0xC 16 5 [] with ctrl := (setup 0xC 16 5 []).ctrl ||| 2 } = .next t ∧
      (t.status == 0) = true :=
  ⟨by decide, endsIn_spec (by decide), endsIn_spec (by decide)⟩
theorem test_witness_ResetValues :
    (∃ t, exec .cfgStd busy = .next t) ∧
    ∃ t, step { State.reset with hostQueue := [.readReg 0x40 64] } = .next t ∧ (t.hostReply == some 0) = true :=
  ⟨⟨_, rfl⟩, endsIn_spec (by decide)⟩
theorem test_witness_Reset : (queued .reset).hostQueue = .reset :: [] := by decide
theorem test_witness_HostReads :
    (queued (.readReg 0x38 64)).hostQueue = .readReg 0x38 64 :: [] ∧
    (queued (.readReg 0x40 32)).hostQueue = .readReg 0x40 32 :: [] := by decide
-- IN_LEN at IN_CAP and one above it; a read-only register; the first reserved offset above the map.
theorem test_witness_HostWrites :
    (queued (.writeReg 0x18 64 27)).hostQueue = .writeReg 0x18 64 27 :: [] ∧
    ((queued (.writeReg 0x30 64 27)).hostQueue = .writeReg 0x30 64 27 :: [] ∧ (27 : Word).toNat ≤ start.params.inCap) ∧
    ((queued (.writeReg 0x30 64 28)).hostQueue = .writeReg 0x30 64 28 :: [] ∧ start.params.inCap < (28 : Word).toNat) ∧
    (queued (.writeReg 0x38 64 27)).hostQueue = .writeReg 0x38 64 27 :: [] ∧
    (queued (.writeReg 0x40 64 27)).hostQueue = .writeReg 0x40 64 27 :: [] := by decide
theorem test_witness_PartialAccess :
    (0x3F < 0x40) ∧ ((0x3F, 32) : Nat × Nat) ∉ [(0x00, 32), (0x04, 32), (0x08, 32), (0x0C, 32), (0x10, 64), (0x18, 64),
      (0x20, 64), (0x28, 64), (0x30, 64), (0x38, 64)] ∧
    ((0x10, 32) : Nat × Nat) ∉ [(0x00, 32), (0x04, 32), (0x08, 32), (0x0C, 32), (0x10, 64), (0x18, 64), (0x20, 64),
      (0x28, 64), (0x30, 64), (0x38, 64)] ∧
    (queued (.readReg 0x3F 32)).hostQueue = .readReg 0x3F 32 :: [] ∧
    (queued (.writeReg 0x10 32 1)).hostQueue = .writeReg 0x10 32 1 :: [] := by decide
-- The last index of each buffer and the first above it; a written byte of IN and of OUT.
theorem test_witness_BufferAccesses :
    (26 < start.params.inCap ∧ ¬ 27 < start.params.inCap ∧ 35 < start.params.outCap ∧ ¬ 36 < start.params.outCap) ∧
    (busy.inBuf.read 2 = some 0xBB ∧ busy.outBuf.read 1 = some 0x22) ∧
    [HostAccess.writeIn 26 1, .readIn 2, .readOut 1, .writeOut 35 1].map (fun x => (queued x).hostQueue) =
      [[.writeIn 26 1], [.readIn 2], [.readOut 1], [.writeOut 35 1]] := by decide
theorem test_witness_ReadsRepeat :
    ∃ t, step { busy with hostQueue := [.readReg 0x04 32, .readReg 0x04 32] } = .next t ∧
      (t.hostReply == some 0) = true := endsIn_spec (by decide)
theorem test_witness_Pseudo :
    ({ start with hostQueue := asmAccesses (.fixedWidth 8) start } : State).hostQueue =
      [.writeReg 0 32 0x10, .writeReg 0 32 0x812] ∧
    ({ start with hostQueue := asmAccesses .variableMode start } : State).hostQueue =
      [.writeReg 0 32 0x10, .writeReg 0 32 0x13] ∧
    ({ start with hostQueue := asmAccesses (.limitTo 4) start } : State).hostQueue =
      [.writeReg 0x18 64 4, .writeReg 0 32 0x14] ∧
    ({ start with hostQueue := asmAccesses .big start } : State).hostQueue = [.writeReg 0 32 0x11] := by decide
theorem test_witness_Observation : busy.Inv ∧ busy.observe.out = some [0x11, 0x22] := by decide

end Sys2Proof.Tests
end

section
/-! SUPPORT. The illegal command words (spec 30_encoding.md R74): which words the decoder accepts, what a host write of
CMD does, and the obligation about them. -/

namespace Sys2Proof

/-- The opcodes of the table of R73. -/
def assignedOpcodes : List Nat :=
  [0x10, 0x11, 0x12, 0x13, 0x14, 0x20, 0x21, 0x22, 0x30, 0x31, 0x32, 0x40, 0x41, 0x50, 0x51,
    0x60, 0x61, 0x62, 0x70, 0x71, 0x72, 0x78, 0x79, 0x7A]

/-- R74 (a) to (c), read off the number of a command word. -/
def IllegalWord (w : Nat) : Prop :=
  w % 256 ∉ assignedOpcodes ∨ w / 2 ^ 16 ≠ 0 ∨ (w % 256 ≠ 0x12 ∧ w / 256 % 256 ≠ 0)

theorem opField_toNat (w : Half) : (opField w).toNat = w.toNat % 256 := by simp [opField]

theorem immField_toNat (w : Half) : (immField w).toNat = w.toNat / 256 % 256 := by
  simp [immField, Nat.shiftRight_eq_div_pow]

theorem rsvField_toNat (w : Half) : (rsvField w).toNat = w.toNat / 2 ^ 16 := by
  have := w.isLt
  simp only [rsvField, BitVec.extractLsb'_toNat, Nat.shiftRight_eq_div_pow]
  omega

/-- The opcode map answers for the opcodes of the table alone, whatever the immediate. -/
theorem instrOfOpcode_eq_none_iff (op imm : BitVec 8) :
    instrOfOpcode op imm = none ↔ op.toNat ∉ assignedOpcodes := by
  unfold instrOfOpcode
  split
  case h_25 => simp_all [assignedOpcodes, BitVec.toNat_eq]  -- no row of the table
  all_goals simp [assignedOpcodes]

/-- The three conditions of R74 on the fields of R70, as the decoder tests them. -/
theorem illegalWord_iff (w : Half) :
    IllegalWord w.toNat ↔
      instrOfOpcode (opField w) (immField w) = none ∨ rsvField w ≠ 0 ∨ (opField w ≠ 0x12#8 ∧ immField w ≠ 0) := by
  simp [IllegalWord, instrOfOpcode_eq_none_iff, BitVec.toNat_eq, opField_toNat, immField_toNat, rsvField_toNat]

/-- The decoder accepts exactly the words that are not illegal (R74, R78). -/
theorem decode_eq_ok_iff_not_illegalWord (w : Half) : (∃ i, decode w = .ok i) ↔ ¬ IllegalWord w.toNat := by
  rw [illegalWord_iff, decode]
  cases instrOfOpcode (opField w) (immField w) with
  | none => simp
  | some i =>
    dsimp only
    split_ifs with hrsv himm
    · exact iff_of_false (by simp) (not_not_intro (.inr (.inl hrsv)))
    · exact iff_of_false (by simp) (not_not_intro (.inr (.inr himm)))
    · exact iff_of_true ⟨i, rfl⟩ (by simp only [false_or, hrsv, himm, not_false_eq_true])

end Sys2Proof

namespace Sys2Proof.Machine

/-- The bits of the host's data that a write of CMD takes (10_state.md R23, R34). -/
theorem extractLsb'_low_half (data : Word) : data.extractLsb' 0 32 = BitVec.ofNat 32 (data.toNat % 2 ^ 32) := by
  simp [BitVec.toNat_eq]

/-- A step whose access is a host write of CMD runs the word on the rest of the queue (10_state.md R23). -/
theorem step_of_cmdWrite {s : State} {data : Word} {rest : List HostAccess}
    (h : s.hostQueue = .writeReg 0x00 32 data :: rest) :
    step s = runCommand (data.extractLsb' 0 32) { s with hostQueue := rest } := by
  simp only [step, hostStep, h]; rfl

/-- A word that does not decode is stored, and STATUS.ERR takes the code of IllegalCommand (R74, R78). -/
theorem runCommand_of_not_decode {w : Half} (s : State) (h : ¬ ∃ i, decode w = .ok i) :
    runCommand w s = .next { s with cmd := w, status := 9 } := by
  unfold runCommand
  cases hd : decode w with
  | ok i => exact absurd ⟨i, hd⟩ h
  | error e => rfl

/-- Settles O4: the decoder accepts exactly the words that are not illegal, and a step that writes a word it rejects
is `State.raise .illegalCommand`. -/
theorem illegalWordRaisesIllegalCommand : Obligations.IllegalWordRaisesIllegalCommand := by
  intro s data rest hq
  have hw : (BitVec.ofNat 32 (data.toNat % 2 ^ 32)).toNat = data.toNat % 2 ^ 32 := by simp
  have hdec := decode_eq_ok_iff_not_illegalWord (BitVec.ofNat 32 (data.toNat % 2 ^ 32))
  rw [hw] at hdec
  refine ⟨fun hill => ?_, hdec.2⟩
  rw [step_of_cmdWrite hq, extractLsb'_low_half]
  exact runCommand_of_not_decode _ fun hok => hdec.1 hok hill

end Sys2Proof.Machine
end

section
/-! SUPPORT. Length prefixes and blob framing (spec 41_length_prefix.md): the codec functions said over the bytes of the
input, and the obligations about LP.ENC, LP.DEC, BLOB.SER and BLOB.DES. -/

namespace Sys2Proof.Machine

@[simp] theorem State.cfg_sizeLimit (s : State) : s.cfg.sizeLimit = s.limit.toNat := rfl

/-- CNT written with the number of a register takes that register (R29). -/
theorem State.writeCnt_toNat (s : State) (n : Word) : s.writeCnt n.toNat = { s with cnt := n } := by
  simp [State.writeCnt, wordOfNat]

/-- A command that writes OUT and succeeds: nothing else changes, and the output is what it wrote (R203). -/
theorem State.complete_memWrite (s : State) (bs : List Byte) :
    ∃ t, (s.memWrite bs).complete = .next t ∧ OnlyOutput s t ∧ OutputIs s t bs :=
  ⟨_, rfl, s.memWrite_onlyOutput bs, s.memWrite_succeed_outputIs bs⟩

/-- `le_bytes(v, n)` as the list of its bytes (R9). -/
theorem leBytes_eq_map_range (v n : Nat) :
    leBytes v n = (List.range n).map fun i => BitVec.ofNat 8 (v / 256 ^ i) :=
  List.ext_getElem (by simp) fun i h _ => by simp [leBytes_getElem v n i h]

/-- `lp_decode` in Fixed mode, the length as a number of the input (R101). -/
theorem lpDecodeFixed_eq (bs : List Byte) (bo : ByteOrder) :
    lpDecodeFixed bs bo =
      if bs.length < 8 then .error .insufficientData else .ok (numberAt bo bs 0 8, 8) := by
  unfold lpDecodeFixed
  split_ifs with h
  · rfl
  · rw [← orderedValue_slice bo bs 0 8 (by omega), List.drop_zero]

/-- The little-endian number in the field after a marker (R101). -/
theorem leValue_take_rest (m : Byte) (rest : List Byte) (k : Nat) (h : k ≤ rest.length) :
    leValue (rest.take k) = numberAt .littleEndian (m :: rest) 1 k :=
  orderedValue_slice .littleEndian (m :: rest) 1 k (by rw [List.length_cons]; omega)

/-- `lp_decode` in Variable mode, marker and field as numbers of the input (R101). -/
theorem lpDecodeVariable_eq (bs : List Byte) :
    lpDecodeVariable bs =
      if bs.length = 0 then .error .insufficientData
      else if byteAt bs 0 ≤ 250 then .ok (byteAt bs 0, 1)
      else if byteAt bs 0 = 0xFF then .error .invalidMarker
      else if bs.length < 1 + markerWidth (byteAt bs 0) then .error .insufficientData
      else if 2 ^ 64 ≤ numberAt .littleEndian bs 1 (markerWidth (byteAt bs 0)) then .error .lengthOverflow
      else .ok (numberAt .littleEndian bs 1 (markerWidth (byteAt bs 0)), 1 + markerWidth (byteAt bs 0)) := by
  cases bs with
  | nil => rfl
  | cons m rest =>
    have hm : byteAt (m :: rest) 0 = m.toNat := rfl
    have hff : m = 0xFF ↔ m.toNat = 0xFF := BitVec.toNat_eq
    have hshort (k : Nat) : rest.length < k ↔ (m :: rest).length < 1 + k := by rw [List.length_cons]; omega
    have hne : (m :: rest).length ≠ 0 := Nat.succ_ne_zero _
    simp only [lpDecodeVariable, hm, hff, hshort, if_neg hne]
    by_cases hlen : (m :: rest).length < 1 + markerWidth m.toNat
    · simp only [if_pos hlen]
    · simp only [leValue_take_rest m rest _ (Nat.le_of_not_lt (mt (hshort _).1 hlen))]

/-- LP.DEC on its input (R107). -/
theorem exec_lpDec_of_inputIs {s : State} {bs : List Byte} (h : s.InputIs bs) :
    exec .lpDec s =
      s.conclude (lpDecode bs s.cfg) fun r t => (t.writeRes (wordOfNat r.1)).writeCnt r.2 :=
  State.withInput_of_inputIs h _

/-- BLOB.SER on its input (R108). -/
theorem exec_blobSer_of_inputIs {s : State} {d : List Byte} (h : s.InputIs d) :
    exec .blobSer s = s.conclude (blobSerialize d s.cfg) State.memWrite :=
  State.withInput_of_inputIs h _

/-- BLOB.DES on its input, CNT taking IN_LEN (R109). -/
theorem exec_blobDes_of_inputIs {s : State} {wire : List Byte} (h : s.InputIs wire) :
    exec .blobDes s =
      s.conclude (blobDeserialize wire s.cfg s.params.hostSizeMax) fun r t =>
        { (t.memWrite r.1).writeRes (wordOfNat r.2) with cnt := s.inLen } := by
  simp only [← State.writeCnt_toNat]
  exact State.withInput_of_inputIs h _

/-- A command whose function raises: STATUS alone takes the code (R202). -/
theorem State.conclude_error {α : Type} (s : State) (e : ErrKind) (w : α → State → State) :
    s.conclude (.error e) w = .next (s.withErr e.code.toNat) := by
  rw [← State.withErr_code]; rfl

/-- `blob_deserialize` of a non-empty wire is `lp_decode`, then the four checks (R105). -/
theorem blobDeserialize_of_ne_nil {wire : List Byte} (cfg : Cfg) (hostSizeMax : Nat) (hne : wire ≠ []) :
    blobDeserialize wire cfg hostSizeMax =
      (lpDecode wire cfg).bind fun r => blobUnframe wire r.1 r.2 cfg hostSizeMax := by
  rw [blobDeserialize, if_neg (mt List.length_eq_zero_iff.1 hne)]
  cases lpDecode wire cfg <;> rfl

/-- Settles O35: LP.DEC concludes with `lp_decode` of its input, whose two modes are said over the input's bytes, so
that each branch of the function is the branch of the statement. -/
theorem lpDecReadsThePrefix : Obligations.LpDecReadsThePrefix := by
  refine ⟨by decide, fun s bs hin => ?_⟩
  intro m k
  rw [exec_lpDec_of_inputIs hin, lpDecode]
  cases s.cfg.mode with
  | fixed =>
    simp only [lpDecodeFixed_eq]
    split_ifs <;> rfl
  | variableLen =>
    have hk : markerWidth (byteAt bs 0) = k := rfl
    simp only [lpDecodeVariable_eq, hk]
    split_ifs <;> rfl

/-- Settles O38: the checks of `blob_deserialize` are those of the statement, and the payload of a record that fills
its input is the slice of the declared length behind the `p` bytes that `lp_decode` consumes. -/
theorem blobDesChecksAndUnframes : Obligations.BlobDesChecksAndUnframes := by
  refine ⟨by decide, fun s wire hin => ?_⟩
  rw [exec_blobDes_of_inputIs hin]
  refine ⟨fun hnil => ?_, fun e hne he => ?_, fun len p hne hok => ?_⟩
  · subst hnil; rfl
  · rw [blobDeserialize_of_ne_nil _ _ hne, he]
    exact s.conclude_error e _
  · rw [blobDeserialize_of_ne_nil _ _ hne, hok, Except.bind, blobUnframe, State.cfg_sizeLimit]
    split_ifs with hlimit hhost hshort hlong
    · rfl
    · rfl
    · rfl
    · rfl
    · have hlen : wire.length = p + len := not_not.1 hlong
      refine ⟨_, (wire.drop p).take len, rfl, ?_, fun j hj => ?_, State.memWrite_outputIs s _, rfl⟩
      · rw [List.length_take, List.length_drop, hlen]; omega
      · rw [List.getElem?_take_of_lt hj, List.getElem?_drop]

/-- Settles O34: LP.ENC writes `lp_encode` of VAL, whose bytes are those of the statement. -/
theorem lpEncWritesThePrefix : Obligations.LpEncWritesThePrefix := by
  refine ⟨by decide, fun s => ?_⟩
  intro b bs
  have hle (n : Nat) : leBytes s.val.toNat n = (List.range n).map b := leBytes_eq_map_range _ n
  have hb0 : BitVec.ofNat 8 s.val.toNat = b 0 := by rw [← Nat.div_one s.val.toNat]; rfl
  have hbs : lpEncode s.val.toNat s.cfg = bs := by
    simp only [lpEncode, lpEncodeVariable, beBytes, hle, hb0, bs]
    cases s.cfg.mode with
    | fixed => cases s.cfg.byteOrder <;> rfl
    | variableLen => rfl
  rw [← hbs]
  exact s.complete_memWrite _

/-- Settles O37: the one check of `blob_serialize` is that of the statement. -/
theorem blobSerFramesTheInput : Obligations.BlobSerFramesTheInput := by
  refine ⟨by decide, fun s d hin => ?_⟩
  rw [exec_blobSer_of_inputIs hin]
  refine ⟨fun habove => ?_, fun hwithin => ?_⟩
  · rw [blobSerialize, State.cfg_sizeLimit, if_pos habove]
    exact s.conclude_error _ _
  · rw [blobSerialize, State.cfg_sizeLimit, if_neg (Nat.not_lt.2 hwithin)]
    exact s.complete_memWrite _

end Sys2Proof.Machine
end

section
/-! SUPPORT. The byte-order unit (spec 42_byte_order.md): the bytes of `emit_fixed` and the number of `reconstruct` said
over the digits of the word, and the obligations about FX.ENC, FX.DECS and FX.DECU. -/

namespace Sys2Proof.Machine

/-- Byte i of `le_bytes(v, n)` as a number (R9). -/
theorem byteAt_leBytes (v : Nat) {n i : Nat} (hi : i < n) : byteAt (leBytes v n) i = v / 256 ^ i % 256 := by
  have hlt : i < (leBytes v n).length := by rwa [leBytes_length]
  rw [byteAt, List.getD_eq_getElem _ _ hlt, leBytes_getElem, BitVec.toNat_ofNat]

/-- Byte i of a reversed sequence is byte `n - 1 - i` of the sequence. -/
theorem byteAt_reverse (bs : List Byte) {i : Nat} (hi : i < bs.length) :
    byteAt bs.reverse i = byteAt bs (bs.length - 1 - i) := by
  simp only [byteAt, List.getD_eq_getElem?_getD, List.getElem?_reverse hi]

/-- Byte i of `be_bytes(v, n)` as a number (R9). -/
theorem byteAt_beBytes (v : Nat) {n i : Nat} (hi : i < n) :
    byteAt (beBytes v n) i = v / 256 ^ (n - 1 - i) % 256 := by
  rw [beBytes, byteAt_reverse _ (by rwa [leBytes_length]), leBytes_length, byteAt_leBytes v (by omega)]

theorem byteAt_lt (bs : List Byte) (i : Nat) : byteAt bs i < 256 := (bs.getD i 0).isLt

/-- A number of n digits is below the n-th power of its base. -/
theorem digitSum_lt_pow {base : Nat} {d : Nat → Nat} (n : Nat) (hd : ∀ i, d i < base) :
    digitSum base d n < base ^ n := by
  induction n with
  | zero => exact Nat.one_pos
  | succ k ih =>
    calc digitSum base d k + d k * base ^ k
      _ < base ^ k + d k * base ^ k := Nat.add_lt_add_right ih _
      _ = (d k + 1) * base ^ k := by ring
      _ ≤ base * base ^ k := Nat.mul_le_mul_right _ (hd k)
      _ = base ^ (k + 1) := (Nat.pow_succ' ..).symm

theorem numberAt_lt_pow (bo : ByteOrder) (bs : List Byte) (k n : Nat) : numberAt bo bs k n < 256 ^ n := by
  cases bo <;> exact digitSum_lt_pow n fun _ => byteAt_lt bs _

/-- `reconstruct` of the first n bytes, as a number of the whole sequence (R121). -/
theorem reconstruct_take (bs : List Byte) (n : Nat) (bo : ByteOrder) (signed : Bool) (h0 : 0 < n) (h8 : n ≤ 8)
    (hn : n ≤ bs.length) :
    reconstruct (bs.take n) bo signed =
      BitVec.ofInt 64 (if signed then Int.bmod (numberAt bo bs 0 n) (256 ^ n) else numberAt bo bs 0 n) := by
  have hlen : (bs.take n).length = n := List.length_take_of_le hn
  have hval : orderedValue (bs.take n) bo = numberAt bo bs 0 n := orderedValue_slice bo bs 0 n (by omega)
  rw [reconstruct_eq _ _ _ (List.ne_nil_of_length_pos (by omega)) (by omega), hlen, hval]

theorem State.intWidth_pos (s : State) : 0 < s.cfg.intWidth := by
  have := s.intWidth_cases
  omega

theorem State.intWidth_le_eight (s : State) : s.cfg.intWidth ≤ 8 := by
  have := s.intWidth_cases
  omega

/-- The common end of FX.DECS and FX.DECU (R124, R125): RES takes the number of the first `intWidth` bytes, read as
two's complement for a signed target. -/
theorem State.conclude_fixedFromInput (s : State) (bs : List Byte) (signed : Bool) :
    (s.conclude (fixedFromInput bs s.cfg.intWidth s.cfg.byteOrder signed) fun w t =>
      (t.writeRes w).writeCnt s.cfg.intWidth) = .next (
      if bs.length < s.cfg.intWidth then s.withErr 2
      else { s with
        res := BitVec.ofInt 64 (if signed then
          Int.bmod (numberAt s.cfg.byteOrder bs 0 s.cfg.intWidth) (256 ^ s.cfg.intWidth)
          else numberAt s.cfg.byteOrder bs 0 s.cfg.intWidth),
        cnt := BitVec.ofNat 64 s.cfg.intWidth, status := 0 }) := by
  rw [fixedFromInput]
  by_cases hshort : bs.length < s.cfg.intWidth
  · rw [if_pos hshort, if_pos hshort]
    exact s.conclude_error _ _
  · rw [if_neg hshort, if_neg hshort,
      reconstruct_take bs _ _ signed s.intWidth_pos s.intWidth_le_eight (Nat.le_of_not_lt hshort)]
    rfl

/-- Settles O41: FX.DECS concludes with `reconstruct` of the first bytes, the two's-complement reading of their
number. -/
theorem fxDecsReconstructsSigned : Obligations.FxDecsReconstructsSigned := by
  refine ⟨by decide, fun s bs hin => ?_⟩
  exact (State.withInput_of_inputIs hin _).trans (s.conclude_fixedFromInput bs true)

/-- Settles O42: FX.DECU concludes with `reconstruct` of the first bytes, which is their number. -/
theorem fxDecuReconstructsUnsigned : Obligations.FxDecuReconstructsUnsigned := by
  refine ⟨by decide, fun s bs hin => ⟨numberAt_lt_pow _ _ _ _, ?_⟩⟩
  rw [← BitVec.ofInt_natCast]
  exact (State.withInput_of_inputIs hin _).trans (s.conclude_fixedFromInput bs false)

/-- Settles O40: FX.ENC writes `emit_fixed` of VAL, whose bytes are the base-256 digits of VAL in either order. -/
theorem fxEncEmitsTheLowBytes : Obligations.FxEncEmitsTheLowBytes := by
  refine ⟨by decide, fun s => ?_⟩
  obtain ⟨t, hexec, honly, hout⟩ := s.complete_memWrite (emitFixed s.val s.cfg.intWidth s.cfg.byteOrder)
  refine ⟨t, _, hexec, honly, hout, emitFixed_length _ _ _, fun i hi => ?_⟩
  rw [emitFixed_length] at hi
  cases s.cfg.byteOrder with
  | littleEndian => exact byteAt_leBytes _ hi
  | bigEndian => exact byteAt_beBytes _ hi

end Sys2Proof.Machine
end

section
/-! SUPPORT. Zigzag on the block (spec 43_varint.md R140, R141): the two maps over the integers, the range in which an
unmapped number is an int32, and the obligations about ZZ.ENC32, ZZ.ENC64, ZZ.DEC32 and ZZ.DEC64. -/

namespace Sys2Proof.Machine

/-- A command that writes RES and succeeds (R203). -/
@[simp] theorem State.complete_writeRes (s : State) (w : Word) :
    (s.writeRes w).complete = .next { s with res := w, status := 0 } := rfl

/-- `zz` is its formula over the integers: neither branch is truncated (R140). -/
theorem natCast_zz (v : Int) : (zz v : Int) = if 0 ≤ v then 2 * v else -2 * v - 1 := by
  unfold zz; split <;> omega

theorem wordOfNat_zz (v : Int) : wordOfNat (zz v) = BitVec.ofInt 64 (if 0 ≤ v then 2 * v else -2 * v - 1) := by
  rw [← natCast_zz, BitVec.ofInt_natCast, wordOfNat]

/-- The zigzag number of a signed word fits in the word's bits (R140). -/
theorem zz_toInt_lt {b : Nat} (x : BitVec (b + 1)) : zz x.toInt < 2 ^ (b + 1) :=
  zz_lt _ b ⟨x.le_toInt, x.toInt_lt⟩

/-- An unmapped number is an int32 exactly when it was at most 0xFFFFFFFF (R141, R149). -/
theorem unzz_mem_int32_iff (u : Nat) : (-2 ^ 31 ≤ unzz u ∧ unzz u ≤ 2 ^ 31 - 1) ↔ u ≤ 0xFFFFFFFF := by
  unfold unzz; split <;> omega

theorem checkInt32_of_mem {v : Int} (h : -2 ^ 31 ≤ v ∧ v ≤ 2 ^ 31 - 1) : checkInt32 v = .ok v :=
  if_neg (by omega)

theorem checkInt32_of_not_mem {v : Int} (h : ¬ (-2 ^ 31 ≤ v ∧ v ≤ 2 ^ 31 - 1)) : checkInt32 v = .error .outOfRange :=
  if_pos (by omega)

/-- ZZ.DEC32 concludes with the checked value (R149). -/
theorem exec_zzDec32 (s : State) :
    exec .zzDec32 s = s.conclude (checkInt32 (unzz s.val.toNat)) fun v t => t.writeRes (wordOfInt v) := rfl

/-- Settles O26: the inverse zigzag of VAL passes the int32 check exactly when VAL is at most 0xFFFFFFFF. -/
theorem zzDec32ChecksTheRange : Obligations.ZzDec32ChecksTheRange := by
  refine ⟨by decide, fun s => ⟨fun hle => ?_, fun hgt => ?_⟩⟩
  · have hmem := (unzz_mem_int32_iff s.val.toNat).2 hle
    refine ⟨?_, hmem⟩
    rw [exec_zzDec32, checkInt32_of_mem hmem]
    exact s.complete_writeRes _
  · have hout := mt (unzz_mem_int32_iff s.val.toNat).1 (Nat.not_le_of_gt hgt)
    rw [exec_zzDec32, checkInt32_of_not_mem hout]
    exact s.conclude_error _ _

/-- Settles O24: RES takes `zz` of the low half, which is its formula and fits in 32 bits. -/
theorem zzEnc32MapsTheLowHalf : Obligations.ZzEnc32MapsTheLowHalf := by
  refine ⟨by decide, fun s => ?_⟩
  have hlt : zz s.valLow.toInt < 2 ^ 32 := zz_toInt_lt s.valLow
  have hres := wordOfNat_zz s.valLow.toInt
  refine ⟨(s.complete_writeRes _).trans (by rw [hres]; rfl), ?_⟩
  exact hres ▸ (Nat.mod_le _ _).trans_lt hlt

/-- Settles O25: RES takes `zz` of VAL, which is its formula and fits in 64 bits. -/
theorem zzEnc64MapsVal : Obligations.ZzEnc64MapsVal := by
  refine ⟨by decide, fun s => ?_⟩
  have hlt : zz s.val.toInt < 2 ^ 64 := zz_toInt_lt s.val
  simp only [← natCast_zz, BitVec.ofInt_natCast]
  exact ⟨s.complete_writeRes _, Int.natCast_nonneg _, by exact_mod_cast hlt⟩

/-- Settles O27: RES takes `unzz` of VAL, and the command has no check. -/
theorem zzDec64InvertsZigzag : Obligations.ZzDec64InvertsZigzag :=
  ⟨by decide, fun s => s.complete_writeRes (wordOfInt (unzz s.val.toNat))⟩

end Sys2Proof.Machine
end

section
/-! SUPPORT. Integer records written (spec 44_integer.md R170, R173 to R176, R181): what a command that frames a payload
leaves, and the obligations about SER.I32, SER.U32, SER.I64 and the upper half of VAL. -/

namespace Sys2Proof.Machine

/-- A command that frames a payload: SizeLimitExceeded above LIMIT, else the prefix and the payload in OUT (R104). -/
theorem State.conclude_blobSerialize (s : State) (p : List Byte) :
    (s.limit.toNat < p.length → s.conclude (blobSerialize p s.cfg) State.memWrite = .next (s.withErr 1)) ∧
    (p.length ≤ s.limit.toNat → ∃ t, s.conclude (blobSerialize p s.cfg) State.memWrite = .next t ∧ OnlyOutput s t ∧
      OutputIs s t (lpEncode p.length s.cfg ++ p)) := by
  rw [blobSerialize, State.cfg_sizeLimit]
  refine ⟨fun habove => ?_, fun hwithin => ?_⟩
  · rw [if_pos habove]
    exact s.conclude_error _ _
  · rw [if_neg (Nat.not_lt.2 hwithin)]
    exact s.complete_memWrite _

/-- A command that writes OUT or raises carries VAL along: only its result `r` can depend on it (R202, R203). -/
theorem State.conclude_memWrite_withVal (s : State) (v : Word) (r : Except ErrKind (List Byte)) :
    ∃ t, s.conclude r State.memWrite = .next t ∧
      { s with val := v }.conclude r State.memWrite = .next { t with val := v } := by
  cases r with
  | error e => exact ⟨s.raise e, rfl, rfl⟩
  | ok bs => exact ⟨(s.memWrite bs).succeed, rfl, rfl⟩

/-- ZZ.ENC32 writes the zigzag number of the low half of VAL (R146). -/
theorem exec_zzEnc32 (s : State) :
    exec .zzEnc32 s = .next { s with res := wordOfNat (zz s.valLow.toInt), status := 0 } := rfl

/-- SER.I32 frames the payload of the low half of VAL, signed (R174). -/
theorem exec_serI32 (s : State) :
    exec .serI32 s = s.conclude (blobSerialize (intPayload s.valLow true s.cfg) s.cfg) State.memWrite := rfl

/-- SER.U32 frames the payload of the low half of VAL, unsigned (R175). -/
theorem exec_serU32 (s : State) :
    exec .serU32 s = s.conclude (blobSerialize (intPayload s.valLow false s.cfg) s.cfg) State.memWrite := rfl

/-- SER.I64 frames the payload of VAL, signed (R176). -/
theorem exec_serI64 (s : State) :
    exec .serI64 s = s.conclude (blobSerialize (intPayload s.val true s.cfg) s.cfg) State.memWrite := rfl

/-- Settles O33: each of the three commands reads VAL through `valLow` alone, and its writes keep VAL. -/
theorem upperHalfOfValIsIgnored : Obligations.UpperHalfOfValIsIgnored := by
  intro i hi s v hv
  have hlow : State.valLow { s with val := v } = s.valLow := hv
  simp only [List.mem_cons, List.not_mem_nil, or_false] at hi
  rcases hi with rfl | rfl | rfl
  · rw [exec_zzEnc32, exec_zzEnc32, hlow]
    exact ⟨_, rfl, rfl⟩
  · rw [exec_serI32, exec_serI32, hlow]
    exact s.conclude_memWrite_withVal v _
  · rw [exec_serU32, exec_serU32, hlow]
    exact s.conclude_memWrite_withVal v _

/-- Settles O44: the payload of the statement is `int_payload` of the operand, framed as a blob. -/
theorem serCommandsWriteARecord : Obligations.SerCommandsWriteARecord := by
  refine ⟨by decide, by decide, by decide, fun s => ?_⟩
  intro low payload
  have hi32 : payload (low.signExtend 64) (zz low.toInt) = intPayload s.valLow true s.cfg := rfl
  have hu32 : payload (low.zeroExtend 64) low.toNat = intPayload s.valLow false s.cfg := rfl
  have hi64 : payload s.val (zz s.val.toInt) = intPayload s.val true s.cfg := calc
    payload s.val (zz s.val.toInt)
    _ = payload (s.val.signExtend 64) (zz s.val.toInt) := by rw [BitVec.signExtend_eq]
    _ = intPayload s.val true s.cfg := rfl
  rw [hi32, hu32, hi64]
  simp only [List.forall_mem_cons, exec_serI32, exec_serU32, exec_serI64]
  exact ⟨s.conclude_blobSerialize _, s.conclude_blobSerialize _, s.conclude_blobSerialize _, by simp⟩

end Sys2Proof.Machine
end

section
/-! SUPPORT. The configuration commands (spec 45_config.md R191, R192, R194): the configuration as the number of CTRL,
which commands keep CTRL and LIMIT or the byte order, that the width code has no effect in Variable mode outside FX,
and the obligations about CFG.STD, CFG.BE and CFG.VAR. -/

namespace Sys2Proof.Machine

/-- The number of CTRL without its reserved bits (R25). -/
theorem State.ctrlWord_toNat (s : State) : s.ctrlWord.toNat = s.ctrl.toNat % 16 := by
  rw [State.ctrlWord, ctrl_low, BitVec.toNat_ofNat]
  omega

/-- The configuration by the number of CTRL: BO is bit 0, MODE bit 1, IW bits 3:2 (10_state.md R25). -/
theorem State.cfg_eq (s : State) :
    s.cfg = {
      byteOrder := if s.ctrl.toNat % 2 = 0 then .littleEndian else .bigEndian,
      mode := if s.ctrl.toNat / 2 % 2 = 0 then .fixed else .variableLen,
      intWidth := widthOfCode (s.ctrl.toNat / 4 % 4),
      sizeLimit := s.limit.toNat } := by
  have hfield (lo len : Nat) : getField s.ctrlWord lo len = s.ctrl.toNat % 16 / 2 ^ lo % 2 ^ len := by
    rw [getField, BitVec.extractLsb'_toNat, Nat.shiftRight_eq_div_pow, s.ctrlWord_toNat]
  have hmode : s.ctrl.toNat % 16 / 2 % 2 = s.ctrl.toNat / 2 % 2 := by omega
  have hiw : s.ctrl.toNat % 16 / 4 % 4 = s.ctrl.toNat / 4 % 4 := by omega
  simp [State.cfg, hfield, hmode, hiw]

/-- The byte order is bit 0 of CTRL alone (R25). -/
theorem State.byteOrder_eq_of_bit {s t : State} (h : t.ctrl.getLsbD 0 = s.ctrl.getLsbD 0) :
    t.cfg.byteOrder = s.cfg.byteOrder := by
  have hmod : t.ctrl.toNat % 2 = s.ctrl.toNat % 2 := by
    simp only [BitVec.getLsbD, Nat.testBit_zero, decide_eq_decide] at h
    omega
  rw [State.cfg_eq, State.cfg_eq, hmod]

theorem State.byteOrder_writeMode (s : State) (v : Nat) : (s.writeMode v).cfg.byteOrder = s.cfg.byteOrder :=
  State.byteOrder_eq_of_bit (by simp [putField, State.ctrlWord, ctrlMask])

theorem State.byteOrder_writeIW (s : State) (v : Nat) : (s.writeIW v).cfg.byteOrder = s.cfg.byteOrder :=
  State.byteOrder_eq_of_bit (by simp [putField, State.ctrlWord, ctrlMask])

/-- CFG.STD writes every bit of CTRL that exists (R191). -/
theorem exec_cfgStd (s : State) :
    exec .cfgStd s = .next { s with ctrl := 0x0000000C, limit := 65536, status := 0 } := by
  have hctrl : ((((s.writeBO 0).writeMode 0).writeIW 3).writeLimit 65536).ctrl = 0x0000000C := by
    simp only [State.writeLimit_ctrl, State.writeIW, State.writeMode, State.writeBO, State.writeCtrl_ctrl,
      State.ctrlWord_writeCtrl]
    exact ctrl_cases (P := fun w => putField (putField (putField w 0 1 0 &&& ctrlMask) 1 1 0 &&& ctrlMask) 2 2 3 &&&
      ctrlMask = 0x0000000C) (by decide) s.ctrl
  rw [← hctrl]
  rfl

/-- CFG.BE sets bit 0 of CTRL (R192). -/
theorem exec_cfgBe (s : State) : exec .cfgBe s = .next { s with ctrl := (s.ctrl &&& 0xF) ||| 1, status := 0 } := by
  have hctrl : putField s.ctrlWord 0 1 1 &&& ctrlMask = (s.ctrl &&& 0xF) ||| 1 :=
    ctrl_cases (P := fun w => putField w 0 1 1 &&& ctrlMask = w ||| 1) (by decide) s.ctrl
  rw [← hctrl]
  rfl

/-- CFG.VAR sets bit 1 of CTRL (R194). -/
theorem exec_cfgVar (s : State) : exec .cfgVar s = .next { s with ctrl := (s.ctrl &&& 0xF) ||| 2, status := 0 } := by
  have hctrl : putField s.ctrlWord 1 1 1 &&& ctrlMask = (s.ctrl &&& 0xF) ||| 2 :=
    ctrl_cases (P := fun w => putField w 1 1 1 &&& ctrlMask = w ||| 2) (by decide) s.ctrl
  rw [← hctrl]
  rfl

/-- Bit 0 of CTRL set: BigEndian, the rest of the configuration kept. -/
theorem State.cfg_setBO (s : State) :
    { s with ctrl := (s.ctrl &&& 0xF) ||| 1, status := 0 : State }.cfg = { s.cfg with byteOrder := .bigEndian } := by
  have hword := s.ctrlWord_toNat
  have hnum : ((s.ctrl &&& 0xF) ||| 1).toNat = s.ctrlWord.toNat / 2 * 2 + 1 :=
    ctrl_cases (P := fun w => (w ||| 1).toNat = w.toNat / 2 * 2 + 1) (by decide) s.ctrl
  have hbo : ((s.ctrl &&& 0xF) ||| 1).toNat % 2 = 1 := by omega
  have hmode : ((s.ctrl &&& 0xF) ||| 1).toNat / 2 % 2 = s.ctrl.toNat / 2 % 2 := by omega
  have hiw : ((s.ctrl &&& 0xF) ||| 1).toNat / 4 % 4 = s.ctrl.toNat / 4 % 4 := by omega
  rw [State.cfg_eq, State.cfg_eq, hbo, hmode, hiw]
  rfl

/-- Bit 1 of CTRL set: Variable mode, the rest of the configuration kept. -/
theorem State.cfg_setMode (s : State) :
    { s with ctrl := (s.ctrl &&& 0xF) ||| 2, status := 0 : State }.cfg = { s.cfg with mode := .variableLen } := by
  have hword := s.ctrlWord_toNat
  have hnum : ((s.ctrl &&& 0xF) ||| 2).toNat = s.ctrlWord.toNat / 4 * 4 + 2 + s.ctrlWord.toNat % 2 :=
    ctrl_cases (P := fun w => (w ||| 2).toNat = w.toNat / 4 * 4 + 2 + w.toNat % 2) (by decide) s.ctrl
  have hbo : ((s.ctrl &&& 0xF) ||| 2).toNat % 2 = s.ctrl.toNat % 2 := by omega
  have hmode : ((s.ctrl &&& 0xF) ||| 2).toNat / 2 % 2 = 1 := by omega
  have hiw : ((s.ctrl &&& 0xF) ||| 2).toNat / 4 % 4 = s.ctrl.toNat / 4 % 4 := by omega
  rw [State.cfg_eq, State.cfg_eq, hbo, hmode, hiw]
  rfl

/-- From `s` the outcome's next state, if there is one, has the CTRL and LIMIT of `s` (45_config.md R190). -/
def KeepsConfig (s : State) (o : Host.Outcome State Fault Refusal) : Prop :=
  ∀ t, o = .next t → t.ctrl = s.ctrl ∧ t.limit = s.limit

theorem State.complete_keepsConfig {s u : State} (hu : u.ctrl = s.ctrl ∧ u.limit = s.limit) :
    KeepsConfig s u.complete := by
  rintro t ⟨⟩
  exact hu

theorem State.conclude_keepsConfig {α : Type} {s : State} (r : Except ErrKind α) {w : α → State → State}
    (hw : ∀ a, (w a s).ctrl = s.ctrl ∧ (w a s).limit = s.limit) : KeepsConfig s (s.conclude r w) := by
  cases r with
  | error e => rintro t ⟨⟩; exact ⟨rfl, rfl⟩
  | ok a => exact State.complete_keepsConfig (hw a)

theorem State.withInput_keepsConfig {s : State} {k : List Byte → Host.Outcome State Fault Refusal}
    (hk : ∀ bs, KeepsConfig s (k bs)) : KeepsConfig s (s.withInput k) := by
  obtain ⟨-, hrefused⟩ | ⟨bs, -, hrun⟩ := s.withInput_eq k
  · rw [hrefused]; rintro t ⟨⟩
  · rw [hrun]; exact hk bs

/-- Every command but the CFG commands keeps CTRL and LIMIT (10_state.md R25, R26). -/
theorem exec_keepsConfig {i : Instr} (s : State) (hi : writesConfig i = false) : KeepsConfig s (exec i s) := by
  cases i with
  | cfgStd | cfgBe | cfgFixw | cfgVar | cfgLimit => cases hi
  | zzEnc32 | zzEnc64 | zzDec64 | lebEnc | lpEnc | fxEnc => exact State.complete_keepsConfig ⟨rfl, rfl⟩
  | zzDec32 | serI32 | serU32 | serI64 => exact State.conclude_keepsConfig _ fun _ => ⟨rfl, rfl⟩
  | lebDec | blobSer | lpDec | blobDes | fxDecs | fxDecu | desI32 | desU32 | desI64 =>
    exact State.withInput_keepsConfig fun _ => State.conclude_keepsConfig _ fun _ => ⟨rfl, rfl⟩

/-- Every command but CFG.STD and CFG.BE keeps the byte order (20_memory.md R56). -/
theorem exec_byteOrder {i : Instr} {s t : State} (hstd : i ≠ .cfgStd) (hbe : i ≠ .cfgBe) (h : exec i s = .next t) :
    t.cfg.byteOrder = s.cfg.byteOrder := by
  cases i with
  | cfgStd => exact absurd rfl hstd
  | cfgBe => exact absurd rfl hbe
  | cfgFixw n =>
    obtain ⟨e, -, hraise⟩ | ⟨code, -, hwrite⟩ :=
      s.conclude_eq (fixedWidthCode n) fun code t => (t.writeMode 0).writeIW code
    · cases hraise.symm.trans h; rfl
    · cases hwrite.symm.trans h
      exact (State.byteOrder_writeIW _ code).trans (s.byteOrder_writeMode 0)
  | cfgVar => cases h; exact s.byteOrder_writeMode 1
  | cfgLimit => cases h; rfl
  | _ => exact State.byteOrder_eq_of_bit (by rw [(exec_keepsConfig s rfl t h).1])

/-- Settles O19: CFG.STD loads the CTRL and LIMIT of `State.reset`; CFG.BE makes the order BigEndian, and every other
command keeps it. -/
theorem cfgStdLoadsTheDefault : Obligations.CfgStdLoadsTheDefault := by
  have hreset : State.reset.cfg = ⟨.littleEndian, .fixed, 8, 65536⟩ := by decide
  refine ⟨by decide, fun s => ⟨exec_cfgStd s, hreset⟩, hreset, rfl, rfl, fun i s t h hbig hlittle => ?_⟩
  by_contra hstd
  have hkept : t.cfg.byteOrder = .bigEndian := by
    by_cases hbe : i = .cfgBe
    · subst hbe
      cases (exec_cfgBe s).symm.trans h
      rw [State.cfg_setBO]
    · rw [exec_byteOrder hstd hbe h, hbig]
  rw [hkept] at hlittle
  cases hlittle

/-- Settles O20: CFG.BE sets bit 0 of CTRL, which is the byte order and nothing else of the configuration. -/
theorem cfgBeSetsBigEndian : Obligations.CfgBeSetsBigEndian :=
  ⟨by decide, fun s => ⟨exec_cfgBe s, s.cfg_setBO⟩⟩

/-- `b` is the configuration `a` up to the integer width. -/
def SameButWidth (a b : Cfg) : Prop := b = { a with intWidth := b.intWidth }

/-- CTRL with other bits 3:2 gives a configuration of another width at most (R25). -/
theorem State.cfg_sameButWidth (s : State) {c : Half} (hc : c.toNat % 4 = s.ctrl.toNat % 4) :
    SameButWidth s.cfg { s with ctrl := c : State }.cfg := by
  have hbo : c.toNat % 2 = s.ctrl.toNat % 2 := by omega
  have hmode : c.toNat / 2 % 2 = s.ctrl.toNat / 2 % 2 := by omega
  simp only [SameButWidth, State.cfg_eq, hbo, hmode]

/-- A blob's frame is written and read without the integer width (R100, R101, R104, R105). -/
theorem blobSerialize_sameButWidth {a b : Cfg} (h : SameButWidth a b) (data : List Byte) :
    blobSerialize data b = blobSerialize data a := by
  rw [h]; rfl

theorem lpEncode_sameButWidth {a b : Cfg} (h : SameButWidth a b) (len : Nat) : lpEncode len b = lpEncode len a := by
  rw [h]; rfl

theorem lpDecode_sameButWidth {a b : Cfg} (h : SameButWidth a b) (bs : List Byte) :
    lpDecode bs b = lpDecode bs a := by
  rw [h]; rfl

theorem blobDeserialize_sameButWidth {a b : Cfg} (h : SameButWidth a b) (wire : List Byte) (hostSizeMax : Nat) :
    blobDeserialize wire b hostSizeMax = blobDeserialize wire a hostSizeMax := by
  rw [h]; rfl

/-- An integer's record in Variable mode is its varint's, whatever the width (R170). -/
theorem intRecord_sameButWidth {a b : Cfg} (h : SameButWidth a b) (hvar : a.mode = .variableLen) {wd : Nat}
    (x : BitVec wd) (signed : Bool) : intRecord x signed b = intRecord x signed a := by
  have hpayload : intPayload x signed b = intPayload x signed a := by
    rw [h]; simp only [intPayload, hvar]
  rw [intRecord, intRecord, hpayload, blobSerialize_sameButWidth h]

/-- The value of a record in Variable mode is its varint's, whatever the width (R171). -/
theorem recordValue_sameButWidth {a b : Cfg} (h : SameButWidth a b) (hvar : a.mode = .variableLen)
    (wire : List Byte) (wd : Nat) (signed : Bool) (params : Params) :
    recordValue wire wd signed b params = recordValue wire wd signed a params := by
  have hvalue (p : List Byte) : intValue p wd signed b params = intValue p wd signed a params := by
    rw [h]; simp only [intValue, hvar]
  simp only [recordValue, blobDeserialize_sameButWidth h, hvalue]

/-- When `o` ends in a state, `o'` ends in that state but for CTRL, which is `c`. -/
def EndsWithCtrl (c : Half) (o o' : Host.Outcome State Fault Refusal) : Prop :=
  ∀ t, o = .next t → o' = .next { t with ctrl := c }

/-- A command that computes the same in both states, with writes that leave CTRL alone, ends the same but for CTRL. -/
theorem State.conclude_endsWithCtrl {α : Type} (s : State) {c : Half} {r r' : Except ErrKind α}
    {w w' : α → State → State} (hr : r' = r) (hw : ∀ a, w' a { s with ctrl := c } = { w a s with ctrl := c }) :
    EndsWithCtrl c (s.conclude r w) ({ s with ctrl := c : State }.conclude r' w') := by
  subst hr
  cases r' with
  | error e => rintro t ⟨⟩; rfl
  | ok a =>
    rintro t ⟨⟩
    rw [State.conclude, hw]
    rfl

theorem State.withInput_endsWithCtrl (s : State) {c : Half} {k k' : List Byte → Host.Outcome State Fault Refusal}
    (hk : ∀ bs, EndsWithCtrl c (k bs) (k' bs)) :
    EndsWithCtrl c (s.withInput k) ({ s with ctrl := c : State }.withInput k') := by
  obtain ⟨-, hrefused⟩ | ⟨bs, hin, hrun⟩ := s.withInput_eq k
  · rw [hrefused]; rintro t ⟨⟩
  · rw [hrun, State.withInput_of_inputIs (s := { s with ctrl := c }) hin]; exact hk bs

/-- LP.ENC writes `lp_encode` of VAL (R106). -/
theorem exec_lpEnc (s : State) : exec .lpEnc s = (s.memWrite (lpEncode s.val.toNat s.cfg)).complete := rfl

/-- Settles O22: CFG.VAR sets bit 1 of CTRL; and in Variable mode what LP, BLOB, SER and DES commands compute is the
same for configurations that differ in the width, which they read in Fixed mode alone. -/
theorem cfgVarSelectsVariable : Obligations.CfgVarSelectsVariable := by
  refine ⟨by decide, fun s => ⟨exec_cfgVar s, s.cfg_setMode⟩, fun s t c hvar hc i hi => ?_⟩
  have hsame := s.cfg_sameButWidth hc
  suffices h : EndsWithCtrl c (exec i s) (exec i { s with ctrl := c }) from h t
  cases i with
  | lpEnc =>
    rw [exec_lpEnc, exec_lpEnc, lpEncode_sameButWidth hsame]
    rintro t ⟨⟩; rfl
  | lpDec =>
    exact s.withInput_endsWithCtrl fun bs =>
      s.conclude_endsWithCtrl (lpDecode_sameButWidth hsame bs) fun _ => rfl
  | blobSer =>
    exact s.withInput_endsWithCtrl fun bs =>
      s.conclude_endsWithCtrl (blobSerialize_sameButWidth hsame bs) fun _ => rfl
  | blobDes =>
    exact s.withInput_endsWithCtrl fun bs =>
      s.conclude_endsWithCtrl (blobDeserialize_sameButWidth hsame bs _) fun _ => rfl
  | serI32 | serU32 | serI64 =>
    exact s.conclude_endsWithCtrl (intRecord_sameButWidth hsame hvar _ _) fun _ => rfl
  | desI32 | desU32 | desI64 =>
    exact s.withInput_endsWithCtrl fun bs =>
      s.conclude_endsWithCtrl (recordValue_sameButWidth hsame hvar bs _ _ _) fun _ => rfl
  | _ => simp at hi

end Sys2Proof.Machine
end

section
/-! SUPPORT. CFG.LIMIT and LIMIT at its two ends (spec 45_config.md R195): what a payload and a declared length can be,
what the record functions raise, and the obligation about CFG.LIMIT. -/

namespace Sys2Proof.Machine

/-- The code of the error taken is what the host reads (60_exceptions.md R200, R202). -/
theorem State.errCode_raise (s : State) (e : ErrKind) : (s.raise e).errCode = e.code.toNat := by
  cases e <;> rfl

/-- The ERR of a command that computes `r` and ends: the code of the error in `r`, or 0 (R202, R203). -/
theorem State.errCode_of_conclude {α : Type} {s t : State} {r : Except ErrKind α} {w : α → State → State}
    (h : s.conclude r w = .next t) :
    (∃ e, r = .error e ∧ t.errCode = e.code.toNat) ∨ (∃ a, r = .ok a ∧ t.errCode = 0) := by
  obtain ⟨e, hr, hraise⟩ | ⟨a, hr, hwrite⟩ := s.conclude_eq r w
  · cases hraise.symm.trans h
    exact .inl ⟨e, hr, s.errCode_raise e⟩
  · cases hwrite.symm.trans h
    exact .inr ⟨a, hr, rfl⟩

/-- A command that reads IN and ends has gone on with its input. -/
theorem State.withInput_of_next {s t : State} {k : List Byte → Host.Outcome State Fault Refusal}
    (h : s.withInput k = .next t) : ∃ bs, s.InputIs bs ∧ k bs = .next t := by
  obtain ⟨-, hrefused⟩ | ⟨bs, hin, hrun⟩ := s.withInput_eq k
  · cases hrefused.symm.trans h
  · exact ⟨bs, hin, hrun.symm.trans h⟩

/-- Each DES command is the shared function at its width and sign (44_integer.md R177 to R179). -/
theorem exec_des_eq_deserialize {i : Instr} (hi : i ∈ [Instr.desI32, .desU32, .desI64]) :
    ∃ wd signed, ∀ s, exec i s = s.deserialize wd signed := by
  simp only [List.mem_cons, List.not_mem_nil, or_false] at hi
  rcases hi with rfl | rfl | rfl
  · exact ⟨32, true, fun _ => rfl⟩
  · exact ⟨32, false, fun _ => rfl⟩
  · exact ⟨64, true, fun _ => rfl⟩

theorem leb128Encode_ne_nil (u : Nat) : leb128Encode u ≠ [] := by
  rw [leb128Encode, lebEncodeLoop]
  split <;> simp

/-- An integer's payload is never empty: the width is at least 1, and so is the number of varint groups (R170). -/
theorem State.intPayload_ne_nil (s : State) {wd : Nat} (x : BitVec wd) (signed : Bool) :
    intPayload x signed s.cfg ≠ [] := by
  rw [intPayload]
  cases s.cfg.mode with
  | fixed => exact List.ne_nil_of_length_pos (by rw [emitFixed_length]; exact s.intWidth_pos)
  | variableLen => cases signed <;> exact leb128Encode_ne_nil _

/-- With LIMIT 0 a payload that is not empty is too long (R104). -/
theorem State.conclude_blobSerialize_of_limit_zero {s : State} (hs : s.limit = 0) {p : List Byte} (hp : p ≠ []) :
    s.conclude (blobSerialize p s.cfg) State.memWrite = .next (s.withErr 1) :=
  (s.conclude_blobSerialize p).1 (by rw [hs]; exact List.length_pos_of_ne_nil hp)

/-- No length is read from an empty input (R101). -/
theorem ne_nil_of_lpDecode {bs : List Byte} {cfg : Cfg} {r : Nat × Nat} (h : lpDecode bs cfg = .ok r) : bs ≠ [] := by
  rintro rfl
  cases hm : cfg.mode <;> simp [lpDecode, hm, lpDecodeFixed, lpDecodeVariable] at h

/-- A decoded length is below 2^64 (R101). -/
theorem length_lt_of_lpDecode {bs : List Byte} {cfg : Cfg} {len p : Nat} (h : lpDecode bs cfg = .ok (len, p)) :
    len < 2 ^ 64 := by
  rw [lpDecode] at h
  cases hm : cfg.mode with
  | fixed =>
    simp only [hm, lpDecodeFixed_eq] at h
    split_ifs at h
    cases h
    exact numberAt_lt_pow cfg.byteOrder bs 0 8
  | variableLen =>
    simp only [hm, lpDecodeVariable_eq] at h
    split_ifs at h
    all_goals cases h; omega

/-- What reading a length raises (R101). -/
theorem lpDecode_error {bs : List Byte} {cfg : Cfg} {e : ErrKind} (h : lpDecode bs cfg = .error e) :
    e ∈ [ErrKind.insufficientData, .lengthOverflow, .invalidMarker] := by
  rw [lpDecode] at h
  cases hm : cfg.mode with
  | fixed =>
    simp only [hm, lpDecodeFixed_eq] at h
    split_ifs at h
    cases h; decide
  | variableLen =>
    simp only [hm, lpDecodeVariable_eq] at h
    split_ifs at h <;> cases h <;> decide

theorem lebDecodeLoop_error {bs : List Byte} {i acc : Nat} {e : ErrKind} (h : lebDecodeLoop bs i acc = .error e) :
    e = .insufficientData := by
  induction bs generalizing i acc with
  | nil => cases h; rfl
  | cons b rest ih =>
    rw [lebDecodeLoop] at h
    split at h
    · cases h
    · exact ih h

/-- What reading a varint raises (43_varint.md R143). -/
theorem leb128Decode_error {policy : NoncanonPolicy} {bs : List Byte} {e : ErrKind}
    (h : leb128Decode policy bs = .error e) : e ∈ [ErrKind.insufficientData, .outOfRange] := by
  rw [leb128Decode] at h
  split at h
  next e' hloop => cases h; simp [lebDecodeLoop_error hloop]
  next => split_ifs at h <;> cases h <;> decide

theorem checkInt32_error {v : Int} {e : ErrKind} (h : checkInt32 v = .error e) : e = .outOfRange := by
  rw [checkInt32] at h
  split_ifs at h
  cases h; rfl

theorem intOfVarint_error {u wd : Nat} {signed : Bool} {e : ErrKind} (h : intOfVarint u wd signed = .error e) :
    e = .outOfRange := by
  rw [intOfVarint] at h
  split_ifs at h
  · split at h
    next e' hcheck => cases h; exact checkInt32_error hcheck
    next => cases h
  · cases h; rfl

theorem narrow32_error {policy : NarrowPolicy} {w : Word} {signed : Bool} {e : ErrKind}
    (h : narrow32 policy w signed = .error e) : e = .outOfRange := by
  unfold narrow32 at h
  extract_lets r at h
  split_ifs at h
  cases h; rfl

/-- What reading a payload raises (44_integer.md R171). -/
theorem intValue_error {p : List Byte} {wd : Nat} {signed : Bool} {cfg : Cfg} {params : Params} {e : ErrKind}
    (h : intValue p wd signed cfg params = .error e) :
    e ∈ [ErrKind.insufficientData, .trailingBytes, .outOfRange] := by
  rw [intValue] at h
  cases hm : cfg.mode with
  | fixed =>
    simp only [hm, intValueFixed] at h
    split_ifs at h
    · cases h; decide
    · cases h; decide
    · simp [narrow32_error h]
  | variableLen =>
    simp only [hm, intValueVariable] at h
    split at h
    next e' hleb =>
      cases h
      have hkind := leb128Decode_error hleb
      simp only [List.mem_cons, List.not_mem_nil, or_false] at hkind ⊢
      tauto
    next u n hleb =>
      split_ifs at h
      · cases h; decide
      · simp [intOfVarint_error h]

/-- No integer is read from an empty payload, in either mode (R171). -/
theorem intValue_nil (wd : Nat) (signed : Bool) (s : State) :
    intValue [] wd signed s.cfg s.params = .error .insufficientData := by
  rw [intValue]
  cases s.cfg.mode with
  | fixed => exact if_pos s.intWidth_pos
  | variableLen => rfl

/-- What stops a record is its frame or its payload (R173). -/
theorem recordValue_error {wire : List Byte} {wd : Nat} {signed : Bool} {cfg : Cfg} {params : Params} {e : ErrKind}
    (h : recordValue wire wd signed cfg params = .error e) :
    blobDeserialize wire cfg params.hostSizeMax = .error e ∨ ∃ p, intValue p wd signed cfg params = .error e := by
  rw [recordValue] at h
  split at h
  next e' hblob => cases h; exact .inl hblob
  next p n hblob => exact .inr ⟨p, h⟩

/-- A record whose length is read goes on to the checks of its frame (R105). -/
theorem blobDeserialize_of_lpDecode {wire : List Byte} {cfg : Cfg} {len p : Nat} (hostSizeMax : Nat)
    (h : lpDecode wire cfg = .ok (len, p)) :
    blobDeserialize wire cfg hostSizeMax = blobUnframe wire len p cfg hostSizeMax := by
  rw [blobDeserialize_of_ne_nil cfg hostSizeMax (ne_nil_of_lpDecode h), h]
  rfl

/-- A payload that is taken out of its frame is within LIMIT (R105). -/
theorem length_le_of_blobUnframe {wire : List Byte} {len p hostSizeMax : Nat} {cfg : Cfg} {r : List Byte × Nat}
    (h : blobUnframe wire len p cfg hostSizeMax = .ok r) : r.1.length ≤ cfg.sizeLimit := by
  rw [blobUnframe] at h
  split_ifs at h with hlimit
  cases h
  exact (List.length_take_le _ _).trans (Nat.le_of_not_lt hlimit)

/-- A record is stopped before the checks of its frame, or they decide, on a length below 2^64 (R101, R105). -/
theorem blobDeserialize_cases (wire : List Byte) (cfg : Cfg) (hostSizeMax : Nat) :
    (∃ e ∈ [ErrKind.insufficientData, .lengthOverflow, .invalidMarker],
      blobDeserialize wire cfg hostSizeMax = .error e) ∨
    ∃ len p, len < 2 ^ 64 ∧ blobDeserialize wire cfg hostSizeMax = blobUnframe wire len p cfg hostSizeMax := by
  by_cases hne : wire = []
  · subst hne; exact .inl ⟨_, by decide, rfl⟩
  cases hlp : lpDecode wire cfg with
  | error e =>
    refine .inl ⟨e, lpDecode_error hlp, ?_⟩
    rw [blobDeserialize_of_ne_nil _ _ hne, hlp]; rfl
  | ok r => exact .inr ⟨r.1, r.2, length_lt_of_lpDecode hlp, blobDeserialize_of_lpDecode _ hlp⟩

/-- With LIMIT 0 no record has a value: its payload would be empty (R195). -/
theorem recordValue_of_limit_zero {s : State} (hs : s.limit = 0) (wire : List Byte) (wd : Nat) (signed : Bool) :
    ∃ e, recordValue wire wd signed s.cfg s.params = .error e := by
  obtain ⟨e, -, hraise⟩ | ⟨len, p, -, hframe⟩ := blobDeserialize_cases wire s.cfg s.params.hostSizeMax
  · exact ⟨e, by rw [recordValue, hraise]⟩
  · cases hchecks : blobUnframe wire len p s.cfg s.params.hostSizeMax with
    | error e => exact ⟨e, by rw [recordValue, hframe, hchecks]⟩
    | ok r =>
      have hle : r.1.length ≤ s.limit.toNat := length_le_of_blobUnframe hchecks
      have hnil : r.1 = [] := by rw [hs] at hle; exact List.length_eq_zero_iff.1 (Nat.le_zero.1 hle)
      exact ⟨.insufficientData, by rw [recordValue, hframe, hchecks, ← intValue_nil wd signed s, ← hnil]⟩

/-- With LIMIT 2^64 - 1 no length is above LIMIT (R195). -/
theorem blobDeserialize_ne_lengthExceedsLimit {s : State} (hs : s.limit.toNat = 2 ^ 64 - 1) (wire : List Byte)
    (hostSizeMax : Nat) : blobDeserialize wire s.cfg hostSizeMax ≠ .error .lengthExceedsLimit := by
  obtain ⟨e, hkind, hraise⟩ | ⟨len, p, hlen, hframe⟩ := blobDeserialize_cases wire s.cfg hostSizeMax
  · rw [hraise]
    rintro ⟨⟩
    exact absurd hkind (by decide)
  · rw [hframe, blobUnframe, State.cfg_sizeLimit, hs, if_neg (by omega)]
    split_ifs <;> simp

/-- With LIMIT 2^64 - 1 no record raises LengthExceedsLimit: its frame does not, and no payload does (R171, R195). -/
theorem recordValue_ne_lengthExceedsLimit {s : State} (hs : s.limit.toNat = 2 ^ 64 - 1) (wire : List Byte) (wd : Nat)
    (signed : Bool) : recordValue wire wd signed s.cfg s.params ≠ .error .lengthExceedsLimit := by
  intro h
  obtain hblob | ⟨p, hvalue⟩ := recordValue_error h
  · exact blobDeserialize_ne_lengthExceedsLimit hs _ _ hblob
  · exact absurd (intValue_error hvalue) (by decide)

/-- A DES command whose record is stopped raises (R177 to R179). -/
theorem State.deserialize_of_error {s : State} {wire : List Byte} (hin : s.InputIs wire) {wd : Nat} {signed : Bool}
    {e : ErrKind} (h : recordValue wire wd signed s.cfg s.params = .error e) :
    s.deserialize wd signed = .next (s.withErr e.code.toNat) := by
  rw [State.deserialize, State.withInput_of_inputIs hin, h, State.conclude_error]

/-- A record that declares a length above LIMIT (R105). -/
theorem recordValue_of_limit_lt {wire : List Byte} {cfg : Cfg} {len p : Nat} (hlp : lpDecode wire cfg = .ok (len, p))
    (hlimit : cfg.sizeLimit < len) (wd : Nat) (signed : Bool) (params : Params) :
    recordValue wire wd signed cfg params = .error .lengthExceedsLimit := by
  rw [recordValue, blobDeserialize_of_lpDecode _ hlp, blobUnframe, if_pos hlimit]

/-- A record that declares 0 and fills its input has no payload to read an integer from (R171). -/
theorem State.recordValue_of_empty {s : State} {wire : List Byte} (hlp : lpDecode wire s.cfg = .ok (0, wire.length))
    (wd : Nat) (signed : Bool) : recordValue wire wd signed s.cfg s.params = .error .insufficientData := by
  have hframe : blobUnframe wire 0 wire.length s.cfg s.params.hostSizeMax = .ok ([], 0) := by simp [blobUnframe]
  rw [recordValue, blobDeserialize_of_lpDecode _ hlp, hframe]
  exact intValue_nil wd signed s

/-- A command that computes no LengthExceedsLimit does not end with its code (R200). -/
theorem State.errCode_ne_three {α : Type} {s t : State} {r : Except ErrKind α} {w : α → State → State}
    (hr : r ≠ .error .lengthExceedsLimit) (h : s.conclude r w = .next t) : t.errCode ≠ 3 := by
  obtain ⟨e, rfl, herr⟩ | ⟨a, -, herr⟩ := State.errCode_of_conclude h
  · rw [herr]
    cases e with
    | lengthExceedsLimit => exact absurd rfl hr
    | _ => decide
  · rw [herr]; decide

/-- Settles O23: CFG.LIMIT moves VAL; with LIMIT 0 every payload but the empty one is too long, and the empty one holds
no integer; with LIMIT 2^64 - 1 no decoded length is above it. -/
theorem cfgLimitStoresVal : Obligations.CfgLimitStoresVal := by
  refine ⟨by decide, fun s => rfl, fun s bs hs hin hne => ?_, fun s hs => ?_, fun s wire len p hs hin hlp i hi => ?_,
    fun s t hs i hi h => ?_, fun s t hs i hi h => ?_⟩
  · rw [exec_blobSer_of_inputIs hin]
    exact State.conclude_blobSerialize_of_limit_zero hs hne
  · have hser {wd : Nat} (x : BitVec wd) (signed : Bool) :=
      State.conclude_blobSerialize_of_limit_zero hs (s.intPayload_ne_nil x signed)
    simp only [List.forall_mem_cons, exec_serI32, exec_serU32, exec_serI64]
    exact ⟨hser _ _, hser _ _, hser _ _, by simp⟩
  · obtain ⟨wd, signed, hdes⟩ := exec_des_eq_deserialize hi
    rw [hdes]
    refine ⟨fun hpos => ?_, fun hzero hfill => ?_⟩
    · exact State.deserialize_of_error hin (recordValue_of_limit_lt hlp (by rwa [State.cfg_sizeLimit, hs]) ..)
    · subst hzero hfill
      exact State.deserialize_of_error hin (State.recordValue_of_empty hlp ..)
  · obtain ⟨wd, signed, hdes⟩ := exec_des_eq_deserialize hi
    rw [hdes] at h
    obtain ⟨wire, -, hrun⟩ := State.withInput_of_next h
    obtain ⟨e, hraise⟩ := recordValue_of_limit_zero hs wire wd signed
    obtain ⟨e, -, herr⟩ | ⟨v, hok, -⟩ := State.errCode_of_conclude hrun
    · rw [herr]; cases e <;> decide
    · cases hraise.symm.trans hok
  · obtain rfl | hi := List.mem_cons.1 hi
    · obtain ⟨wire, -, hrun⟩ := State.withInput_of_next h
      exact State.errCode_ne_three (blobDeserialize_ne_lengthExceedsLimit hs _ _) hrun
    · obtain ⟨wd, signed, hdes⟩ := exec_des_eq_deserialize hi
      rw [hdes] at h
      obtain ⟨wire, -, hrun⟩ := State.withInput_of_next h
      exact State.errCode_ne_three (recordValue_ne_lengthExceedsLimit hs _ _ _) hrun

end Sys2Proof.Machine
end

section
/-! SUPPORT. Errors are precise (spec 60_exceptions.md R200, R202): what each command's function raises, and the
obligation about a command that raises. -/

namespace Sys2Proof.Machine

/-- CFG.FIXW concludes with the IW code of its width (45_config.md R193). -/
theorem exec_cfgFixw (n : Nat) (s : State) :
    exec (.cfgFixw n) s = s.conclude (fixedWidthCode n) fun code t => (t.writeMode 0).writeIW code := rfl

theorem fixedWidthCode_error {n : Nat} {e : ErrKind} (h : fixedWidthCode n = .error e) : e = .invalidConfiguration := by
  rw [fixedWidthCode] at h
  split at h <;> cases h
  rfl

theorem fixedFromInput_error {bs : List Byte} {n : Nat} {bo : ByteOrder} {signed : Bool} {e : ErrKind}
    (h : fixedFromInput bs n bo signed = .error e) : e = .insufficientData := by
  rw [fixedFromInput] at h
  split_ifs at h
  cases h; rfl

/-- What framing a payload raises (41_length_prefix.md R104). -/
theorem blobSerialize_error {data : List Byte} {cfg : Cfg} {e : ErrKind} (h : blobSerialize data cfg = .error e) :
    e = .sizeLimitExceeded := by
  rw [blobSerialize] at h
  split_ifs at h
  cases h; rfl

/-- What the checks of a frame after its prefix raise (R105). -/
theorem blobUnframe_error {wire : List Byte} {len p hostSizeMax : Nat} {cfg : Cfg} {e : ErrKind}
    (h : blobUnframe wire len p cfg hostSizeMax = .error e) :
    e ∈ [ErrKind.lengthExceedsLimit, .lengthOverflow, .insufficientData, .trailingBytes] := by
  rw [blobUnframe] at h
  split_ifs at h <;> cases h <;> decide

/-- A record's frame raises what its prefix raises, or what the checks after it raise (R105). -/
theorem blobDeserialize_error {wire : List Byte} {cfg : Cfg} {hostSizeMax : Nat} {e : ErrKind}
    (h : blobDeserialize wire cfg hostSizeMax = .error e) : e ∈ mayRaise .blobDes := by
  have hprefix : [ErrKind.insufficientData, .lengthOverflow, .invalidMarker] ⊆ mayRaise .blobDes := by decide
  have hchecks : [ErrKind.lengthExceedsLimit, .lengthOverflow, .insufficientData, .trailingBytes] ⊆
      mayRaise .blobDes := by decide
  obtain ⟨e', hkind, hraise⟩ | ⟨len, p, -, hframe⟩ := blobDeserialize_cases wire cfg hostSizeMax
  · cases hraise.symm.trans h
    exact hprefix hkind
  · exact hchecks (blobUnframe_error (hframe.symm.trans h))

/-- An integer's record raises what its frame or its payload raises (44_integer.md R173, R177 to R179). -/
theorem recordValue_error_mem_mayRaise {wire : List Byte} {wd : Nat} {signed : Bool} {cfg : Cfg} {params : Params}
    {e : ErrKind} (h : recordValue wire wd signed cfg params = .error e) : e ∈ mayRaise .desI64 := by
  have hframe : mayRaise .blobDes ⊆ mayRaise .desI64 := by decide
  have hpayload : [ErrKind.insufficientData, .trailingBytes, .outOfRange] ⊆ mayRaise .desI64 := by decide
  obtain hblob | ⟨p, hvalue⟩ := recordValue_error h
  · exact hframe (blobDeserialize_error hblob)
  · exact hpayload (intValue_error hvalue)

/-- The outcome's next state, if there is one, has ERR 0, or it is `s` with the code of one of `kinds` in STATUS
(60_exceptions.md R202, R203). -/
def SucceedsOrRaises (s : State) (kinds : List ErrKind) (o : Host.Outcome State Fault Refusal) : Prop :=
  ∀ t, o = .next t → t.status = 0 ∨ ∃ e ∈ kinds, t = s.withErr e.code.toNat

theorem State.complete_succeedsOrRaises (s u : State) (kinds : List ErrKind) : SucceedsOrRaises s kinds u.complete := by
  rintro t ⟨⟩
  exact .inl u.succeed_status

/-- A command that concludes drops its writes when its function raises, so that only the function's kinds count. -/
theorem State.conclude_succeedsOrRaises {α : Type} (s : State) {kinds : List ErrKind} {r : Except ErrKind α}
    {w : α → State → State} (hr : ∀ e, r = .error e → e ∈ kinds) : SucceedsOrRaises s kinds (s.conclude r w) := by
  intro t h
  obtain ⟨e, he, hraise⟩ | ⟨a, -, hwrite⟩ := s.conclude_eq r w
  · cases hraise.symm.trans h
    exact .inr ⟨e, hr e he, s.withErr_code e⟩
  · cases hwrite.symm.trans h
    exact .inl (w a s).succeed_status

theorem State.withInput_succeedsOrRaises {s : State} {kinds : List ErrKind}
    {k : List Byte → Host.Outcome State Fault Refusal} (hk : ∀ bs, SucceedsOrRaises s kinds (k bs)) :
    SucceedsOrRaises s kinds (s.withInput k) := by
  intro t h
  obtain ⟨bs, -, hrun⟩ := State.withInput_of_next h
  exact hk bs t hrun

/-- Every command succeeds, or raises a kind of its own row of R200 and changes nothing else. -/
theorem exec_succeedsOrRaises (i : Instr) (s : State) : SucceedsOrRaises s (mayRaise i) (exec i s) := by
  cases i with
  | cfgStd | cfgBe | cfgVar | cfgLimit | zzEnc32 | zzEnc64 | zzDec64 | lebEnc | lpEnc | fxEnc =>
    exact s.complete_succeedsOrRaises _ _
  | cfgFixw n =>
    rw [exec_cfgFixw]
    exact s.conclude_succeedsOrRaises fun _ h => List.mem_singleton.2 (fixedWidthCode_error h)
  | zzDec32 => exact s.conclude_succeedsOrRaises fun _ h => List.mem_singleton.2 (checkInt32_error h)
  | serI32 | serU32 | serI64 =>
    exact s.conclude_succeedsOrRaises fun _ h => List.mem_singleton.2 (blobSerialize_error h)
  | blobSer =>
    exact State.withInput_succeedsOrRaises fun _ =>
      s.conclude_succeedsOrRaises fun _ h => List.mem_singleton.2 (blobSerialize_error h)
  | fxDecs | fxDecu =>
    exact State.withInput_succeedsOrRaises fun _ =>
      s.conclude_succeedsOrRaises fun _ h => List.mem_singleton.2 (fixedFromInput_error h)
  | lebDec =>
    exact State.withInput_succeedsOrRaises fun _ => s.conclude_succeedsOrRaises fun _ => leb128Decode_error
  | lpDec => exact State.withInput_succeedsOrRaises fun _ => s.conclude_succeedsOrRaises fun _ => lpDecode_error
  | blobDes =>
    exact State.withInput_succeedsOrRaises fun _ => s.conclude_succeedsOrRaises fun _ => blobDeserialize_error
  | desI32 | desU32 | desI64 =>
    exact State.withInput_succeedsOrRaises fun _ =>
      s.conclude_succeedsOrRaises fun _ => recordValue_error_mem_mayRaise

/-- Settles O8: a command ends by `State.complete` or `State.conclude`, and the function it concludes with raises only
kinds of the command's row. -/
theorem errorWritesOnlyItsCode : Obligations.ErrorWritesOnlyItsCode := exec_succeedsOrRaises

end Sys2Proof.Machine
end

section
/-! SUPPORT. The reset values as the host reads them (spec 70_reset_and_hazards.md R231): where an access to a reserved
offset goes, what a read of one returns, and the obligation about the reset table. -/

namespace Sys2Proof.Machine

/-- A step performs the first access of the queue on the rest of the queue (70_reset_and_hazards.md R238). -/
theorem step_of_hostQueue {s : State} {x : HostAccess} {rest : List HostAccess} (h : s.hostQueue = x :: rest) :
    step s = hostAccess x { s with hostQueue := rest } := by
  simp only [step, hostStep, h]

/-- Every register lies below 0x40 and none at 0x0C (10_state.md R22). -/
theorem Reg.offset_not_reserved (r : Reg) : ¬ (r.offset = 0x0C ∨ 0x40 ≤ r.offset) := by
  cases r <;> decide

/-- An access to a reserved offset reaches no register (R22, R32). -/
theorem regTarget_of_reserved {offset : Nat} (bits : Nat) (h : offset = 0x0C ∨ 0x40 ≤ offset) :
    regTarget offset bits = .reserved ∨ regTarget offset bits = .noAccess := by
  have hnone : (allRegs.find? fun r => decide (r.offset = offset)) = none :=
    List.find?_eq_none.2 fun r _ hr => r.offset_not_reserved (of_decide_eq_true hr ▸ h)
  unfold regTarget
  rw [hnone]
  dsimp only
  split_ifs <;> simp

/-- A read of a reserved offset that is answered replies 0 and changes nothing else (R32; 20_memory.md R59). -/
theorem hostReadReg_of_reserved {offset bits : Nat} {s t : State} (h : offset = 0x0C ∨ 0x40 ≤ offset)
    (hread : hostReadReg offset bits s = .next t) : t = { s with hostReply := some 0 } := by
  unfold hostReadReg at hread
  obtain htarget | htarget := regTarget_of_reserved bits h
  · rw [htarget] at hread
    exact (Host.Outcome.next.inj hread).symm
  · rw [htarget] at hread
    cases hread

/-- Settles O50: the registers of `State.reset` are the reset table, CFG.STD loads the same configuration, and a
reserved offset reaches no register. -/
theorem resetLoadsTheResetValues : Obligations.ResetLoadsTheResetValues := by
  obtain ⟨-, -, hcfg, -⟩ := cfgStdLoadsTheDefault
  refine ⟨rfl, rfl, rfl, rfl, rfl, rfl, rfl, rfl, rfl, rfl, hcfg, fun s t h => ?_, rfl, fun offset bits t hoff h => ?_⟩
  · cases (exec_cfgStd s).symm.trans h
    rfl
  · rw [step_of_hostQueue rfl] at h
    rw [hostReadReg_of_reserved hoff h]

end Sys2Proof.Machine
end

section
/-! SUPPORT. The command word both ways (spec 30_encoding.md R70, R73, R78, R79): the fields of an encoded word, what a
word that decodes is made of, and the obligations about `encode` and `decode`. -/

namespace Sys2Proof

/-- The number of the encoded word: the opcode and 256 times the immediate (R70, R79). -/
theorem encode_toNat (i : Instr) : (encode i).toNat = (opcodeOf i).toNat + 256 * (immediateOf i).toNat := by
  have hop := (opcodeOf i).isLt
  rw [encode, BitVec.toNat_append, BitVec.toNat_append, ← Nat.shiftLeft_add_eq_or_of_lt hop, Nat.shiftLeft_eq]
  simp
  omega

@[simp] theorem opField_encode (i : Instr) : opField (encode i) = opcodeOf i := by
  have hop := (opcodeOf i).isLt
  rw [BitVec.toNat_eq, opField_toNat, encode_toNat]
  omega

@[simp] theorem immField_encode (i : Instr) : immField (encode i) = immediateOf i := by
  have hop := (opcodeOf i).isLt
  have himm := (immediateOf i).isLt
  rw [BitVec.toNat_eq, immField_toNat, encode_toNat]
  omega

@[simp] theorem rsvField_encode (i : Instr) : rsvField (encode i) = 0 := by
  have hop := (opcodeOf i).isLt
  have himm := (immediateOf i).isLt
  rw [BitVec.toNat_eq, rsvField_toNat, encode_toNat]
  change _ = 0
  omega

/-- The opcode map takes the fields of a well-formed instruction back to it (R73). -/
theorem instrOfOpcode_opcodeOf {i : Instr} (hwf : i.wellFormed = true) :
    instrOfOpcode (opcodeOf i) (immediateOf i) = some i := by
  cases i with
  | cfgFixw n =>
    have hn : n < 256 := of_decide_eq_true hwf
    have himm : (BitVec.ofNat 8 n).toNat = n := Nat.mod_eq_of_lt hn
    exact congrArg (fun k => some (Instr.cfgFixw k)) himm
  | _ => rfl

/-- Only CFG.FIXW has an immediate (R71). -/
theorem immediateOf_eq_zero {i : Instr} (h : opcodeOf i ≠ 0x12#8) : immediateOf i = 0 := by
  cases i with
  | cfgFixw n => exact absurd rfl h
  | _ => rfl

/-- Settles O1: the three fields of the encoded word are the opcode, the immediate and 0, so it passes the three checks
of the decoder and the opcode map takes it back. -/
theorem decodeOfEncodeIsTheInstruction : Obligations.DecodeOfEncodeIsTheInstruction := by
  intro i hwf
  have himm : ¬ (opcodeOf i ≠ 0x12#8 ∧ immediateOf i ≠ 0) := fun ⟨hop, hne⟩ => hne (immediateOf_eq_zero hop)
  simp only [decode, opField_encode, immField_encode, rsvField_encode, instrOfOpcode_opcodeOf hwf, himm, ne_eq,
    not_true_eq_false, if_false]

/-- The instruction that the opcode map selects is well-formed and has that opcode, and for CFG.FIXW that immediate
(R71, R73). -/
theorem instrOfOpcode_eq_some {op imm : BitVec 8} {i : Instr} (h : instrOfOpcode op imm = some i) :
    i.wellFormed = true ∧ opcodeOf i = op ∧ (op = 0x12#8 → immediateOf i = imm) := by
  unfold instrOfOpcode at h
  split at h
  case h_3 =>  -- CFG.FIXW
    cases h
    exact ⟨decide_eq_true imm.isLt, rfl, fun _ => by simp [immediateOf]⟩
  case h_25 => cases h  -- no row of the table
  all_goals cases h; exact ⟨rfl, rfl, fun hop => absurd hop (by decide)⟩

/-- A word is its three fields (R70). -/
theorem half_toNat_eq_fields (w : Half) :
    w.toNat = (opField w).toNat + 256 * (immField w).toNat + 2 ^ 16 * (rsvField w).toNat := by
  rw [opField_toNat, immField_toNat, rsvField_toNat]
  omega

/-- A word that decodes passed the decoder's three checks (R78). -/
theorem decode_eq_ok {w : Half} {i : Instr} (h : decode w = .ok i) :
    instrOfOpcode (opField w) (immField w) = some i ∧ rsvField w = 0 ∧ (opField w ≠ 0x12#8 → immField w = 0) := by
  rw [decode] at h
  split at h
  next => cases h
  next j hj =>
    split_ifs at h with hrsv himm
    cases h
    exact ⟨hj, not_not.1 hrsv, fun hop => not_not.1 fun hne => himm ⟨hop, hne⟩⟩

/-- Settles O2: the checks of the decoder leave the reserved field 0, and the immediate 0 outside CFG.FIXW, so the word
has the three fields of the encoded one. -/
theorem decodedWordIsTheEncodedWord : Obligations.DecodedWordIsTheEncodedWord := by
  intro w i h
  obtain ⟨hmap, hrsv, himm⟩ := decode_eq_ok h
  obtain ⟨hwf, hop, hfixw⟩ := instrOfOpcode_eq_some hmap
  have himmeq : immediateOf i = immField w := by
    by_cases hcase : opField w = 0x12#8
    · exact hfixw hcase
    · rw [immediateOf_eq_zero (hop ▸ hcase), himm hcase]
  refine ⟨hwf, BitVec.eq_of_toNat_eq ?_⟩
  rw [encode_toNat, half_toNat_eq_fields w, hop, himmeq, hrsv]
  rfl

/-- Settles O3: each of the eight words, run through the decoder. -/
theorem specWordsDecode : Obligations.SpecWordsDecode := by
  unfold Obligations.SpecWordsDecode
  decide

end Sys2Proof
end

section
/-! SUPPORT. What a command can do, said once (spec 10_state.md R28 to R31, 20_memory.md R54, 60_exceptions.md R202,
R203): the registers it writes, the length of its output, the outcome on unwritten input, and the obligations about every
command. -/

namespace Sys2Proof.Machine

/-- `t` is `s` but for STATUS and what the commands listed with `i` write (10_state.md R25, R26, R28, R29, R31). -/
def ChangesOnlyListed (i : Instr) (s t : State) : Prop :=
  t = { s with
    status := t.status
    ctrl := if writesConfig i then t.ctrl else s.ctrl
    limit := if writesConfig i then t.limit else s.limit
    res := if writesRes i then t.res else s.res
    cnt := if writesCnt i then t.cnt else s.cnt
    outLen := if writesOut i then t.outLen else s.outLen
    outBuf := if writesOut i then t.outBuf else s.outBuf }

/-- The longest output of a command (20_memory.md R54). -/
def outputBound (i : Instr) (s : State) : Nat :=
  match i with
  | .lebEnc => 10
  | .lpEnc => 9
  | .fxEnc => 8
  | .serI32 | .serU32 | .serI64 => 16
  | .blobSer => s.inLen.toNat + 9
  | .blobDes => s.inLen.toNat
  | _ => 0

/-- What a command `i` that succeeds has done from `s` to `t`. -/
structure Succeeded (i : Instr) (s t : State) : Prop where
  frame : ChangesOnlyListed i s t
  ctrl : t.ctrl = s.ctrl ∨ t.ctrl.toNat < 16
  output : writesOut i = true → ∃ bs : List Byte, bs.length ≤ outputBound i s ∧
    t.outBuf = s.outBuf.writeRange 0 bs ∧ t.outLen = wordOfNat bs.length

theorem State.withErr_changesOnlyListed (i : Instr) (s : State) (code : Nat) :
    ChangesOnlyListed i s (s.withErr code) := by
  simp only [ChangesOnlyListed, State.withErr, ite_self]

theorem ErrKind.code_bounds (e : ErrKind) : 1 ≤ e.code.toNat ∧ e.code.toNat ≤ 9 := by
  cases e <;> decide

/-- An error's code in STATUS (R24, R200). -/
theorem State.withErr_status_toNat (s : State) (e : ErrKind) :
    (s.withErr e.code.toNat).status.toNat = e.code.toNat := by
  have := e.code_bounds
  rw [State.withErr, BitVec.toNat_ofNat]
  omega

theorem State.withErr_status_ne_zero (s : State) (e : ErrKind) : (s.withErr e.code.toNat).status ≠ 0 := by
  intro h
  have hnum := s.withErr_status_toNat e
  rw [h] at hnum
  exact absurd hnum.symm (Nat.ne_of_gt e.code_bounds.1)

/-- A command that concludes with ERR 0 has made its writes (R203). -/
theorem State.conclude_succeeded {α : Type} {s t : State} {r : Except ErrKind α} {w : α → State → State}
    (h : s.conclude r w = .next t) (hok : t.status = 0) : ∃ a, r = .ok a ∧ t = (w a s).succeed := by
  obtain ⟨e, -, hraise⟩ | ⟨a, hr, hwrite⟩ := s.conclude_eq r w
  · cases hraise.symm.trans h
    rw [State.withErr_code] at hok
    exact absurd hok (s.withErr_status_ne_zero e)
  · cases hwrite.symm.trans h
    exact ⟨a, hr, rfl⟩

theorem State.conclude_ends {α : Type} (s : State) (r : Except ErrKind α) (w : α → State → State) :
    ∃ t, s.conclude r w = .next t := by
  cases r <;> exact ⟨_, rfl⟩

theorem toNat_and_ctrlMask_lt (w : Half) : (w &&& ctrlMask).toNat < 16 := by
  rw [ctrl_low, BitVec.toNat_ofNat]
  omega

/-- A framed payload is its prefix longer than the payload (41_length_prefix.md R104). -/
theorem blobSerialize_ok {data w : List Byte} {cfg : Cfg} (h : blobSerialize data cfg = .ok w) :
    data.length ≤ cfg.sizeLimit ∧ w = lpEncode data.length cfg ++ data := by
  rw [blobSerialize] at h
  split_ifs at h with hlimit
  cases h
  exact ⟨Nat.le_of_not_lt hlimit, rfl⟩

theorem lpEncode_length_of_fixed {cfg : Cfg} (h : cfg.mode = .fixed) (len : Nat) : (lpEncode len cfg).length = 8 := by
  simp only [lpEncode, h]
  cases cfg.byteOrder <;> simp

/-- In Variable mode a length up to 250 is its own prefix (41_length_prefix.md R100). -/
theorem lpEncode_of_variable {cfg : Cfg} (h : cfg.mode = .variableLen) {len : Nat} (hlen : len < 251) :
    lpEncode len cfg = [BitVec.ofNat 8 len] := by
  simp only [lpEncode, h, lpEncodeVariable, if_pos hlen]

/-- The 64-bit word that Fixed mode emits for an integer (44_integer.md R170). -/
def extended {wd : Nat} (x : BitVec wd) (signed : Bool) : Word := if signed then x.signExtend 64 else x.zeroExtend 64

/-- The number that Variable mode encodes for an integer (R170). -/
def varintNumber {wd : Nat} (x : BitVec wd) (signed : Bool) : Nat := if signed then zz x.toInt else x.toNat

theorem intPayload_of_fixed {cfg : Cfg} (h : cfg.mode = .fixed) {wd : Nat} (x : BitVec wd) (signed : Bool) :
    intPayload x signed cfg = emitFixed (extended x signed) cfg.intWidth cfg.byteOrder := by
  simp only [intPayload, h, extended]

theorem intPayload_of_variable {cfg : Cfg} (h : cfg.mode = .variableLen) {wd : Nat} (x : BitVec wd) (signed : Bool) :
    intPayload x signed cfg = leb128Encode (varintNumber x signed) := by
  simp only [intPayload, h, varintNumber]
  cases signed <;> rfl

theorem varintNumber_lt_pow {b : Nat} (x : BitVec (b + 1)) (signed : Bool) : varintNumber x signed < 2 ^ (b + 1) := by
  cases signed with
  | false => exact x.isLt
  | true => exact zz_toInt_lt x

theorem varintNumber_lt {b : Nat} (hb : b < 64) (x : BitVec (b + 1)) (signed : Bool) :
    varintNumber x signed < 2 ^ 64 :=
  (varintNumber_lt_pow x signed).trans_le (Nat.pow_le_pow_right (by decide) hb)

/-- The payload of an integer is at most ten bytes (R170, R173). -/
theorem State.intPayload_length (s : State) {b : Nat} (hb : b < 64) (x : BitVec (b + 1)) (signed : Bool) :
    (intPayload x signed s.cfg).length ≤ 10 := by
  cases hmode : s.cfg.mode with
  | fixed =>
    rw [intPayload_of_fixed hmode, emitFixed_length]
    exact s.intWidth_le_eight.trans (by decide)
  | variableLen =>
    rw [intPayload_of_variable hmode]
    exact (leb128Encode_length _ (varintNumber_lt hb x signed)).2

/-- The record of an integer is at most 16 bytes (20_memory.md R54). -/
theorem State.intRecord_length {s : State} {b : Nat} (hb : b < 64) {x : BitVec (b + 1)} {signed : Bool}
    {w : List Byte} (h : intRecord x signed s.cfg = .ok w) : w.length ≤ 16 := by
  obtain ⟨-, rfl⟩ := blobSerialize_ok h
  have hpayload := s.intPayload_length hb x signed
  rw [List.length_append]
  cases hmode : s.cfg.mode with
  | fixed =>
    have hwidth := s.intWidth_le_eight
    rw [lpEncode_length_of_fixed hmode, intPayload_of_fixed hmode, emitFixed_length]
    omega
  | variableLen =>
    rw [lpEncode_of_variable hmode (by omega), List.length_singleton]
    omega

/-- A payload taken out of its frame is no longer than the wire (41_length_prefix.md R105). -/
theorem length_le_of_blobDeserialize {wire : List Byte} {cfg : Cfg} {hostSizeMax : Nat} {r : List Byte × Nat}
    (h : blobDeserialize wire cfg hostSizeMax = .ok r) : r.1.length ≤ wire.length := by
  obtain ⟨e, -, hraise⟩ | ⟨len, p, -, hframe⟩ := blobDeserialize_cases wire cfg hostSizeMax
  · cases hraise.symm.trans h
  · rw [hframe, blobUnframe] at h
    split_ifs at h
    cases h
    rw [List.length_take, List.length_drop]
    omega

/-- What every command that succeeds has done. -/
theorem exec_succeeded {i : Instr} {s t : State} (h : exec i s = .next t) (hok : t.status = 0) : Succeeded i s t := by
  cases i with
  | cfgStd | cfgBe | cfgVar => cases h; exact ⟨rfl, .inr (toNat_and_ctrlMask_lt _), nofun⟩
  | cfgFixw n =>
    rw [exec_cfgFixw] at h
    obtain ⟨code, -, rfl⟩ := State.conclude_succeeded h hok
    exact ⟨rfl, .inr (toNat_and_ctrlMask_lt _), nofun⟩
  | cfgLimit | zzEnc32 | zzEnc64 | zzDec64 => cases h; exact ⟨rfl, .inl rfl, nofun⟩
  | zzDec32 =>
    obtain ⟨v, -, rfl⟩ := State.conclude_succeeded h hok
    exact ⟨rfl, .inl rfl, nofun⟩
  | lebDec | lpDec | fxDecs | fxDecu | desI32 | desU32 | desI64 =>
    obtain ⟨bs, -, hrun⟩ := State.withInput_of_next h
    obtain ⟨v, -, rfl⟩ := State.conclude_succeeded hrun hok
    exact ⟨rfl, .inl rfl, nofun⟩
  | lebEnc => cases h; exact ⟨rfl, .inl rfl, fun _ => ⟨_, (leb128Encode_length _ s.val.isLt).2, rfl, rfl⟩⟩
  | lpEnc => cases h; exact ⟨rfl, .inl rfl, fun _ => ⟨_, (lpEncode_length _ _).2, rfl, rfl⟩⟩
  | fxEnc =>
    cases h
    exact ⟨rfl, .inl rfl, fun _ => ⟨_, (emitFixed_length ..).trans_le s.intWidth_le_eight, rfl, rfl⟩⟩
  | serI32 | serU32 | serI64 =>
    obtain ⟨w, hw, rfl⟩ := State.conclude_succeeded h hok
    exact ⟨rfl, .inl rfl, fun _ => ⟨w, State.intRecord_length (by decide) hw, rfl, rfl⟩⟩
  | blobSer =>
    obtain ⟨data, hin, hrun⟩ := State.withInput_of_next h
    obtain ⟨w, hw, rfl⟩ := State.conclude_succeeded hrun hok
    refine ⟨rfl, .inl rfl, fun _ => ⟨w, ?_, rfl, rfl⟩⟩
    obtain ⟨-, rfl⟩ := blobSerialize_ok hw
    have hprefix := lpEncode_length data.length s.cfg
    rw [List.length_append, outputBound, ← hin.1]
    omega
  | blobDes =>
    obtain ⟨wire, hin, hrun⟩ := State.withInput_of_next h
    obtain ⟨r, hr, rfl⟩ := State.conclude_succeeded hrun hok
    refine ⟨rfl, .inl rfl, fun _ => ⟨r.1, ?_, rfl, rfl⟩⟩
    exact (length_le_of_blobDeserialize hr).trans_eq hin.1

/-- A command that ends raises, or it succeeds and changes what is listed for it (R202, R203). -/
theorem exec_cases {i : Instr} {s t : State} (h : exec i s = .next t) :
    (∃ e ∈ mayRaise i, t = s.withErr e.code.toNat) ∨ (t.status = 0 ∧ Succeeded i s t) :=
  (exec_succeedsOrRaises i s t h).symm.imp_right fun hok => ⟨hok, exec_succeeded h hok⟩

theorem exec_changesOnlyListed {i : Instr} {s t : State} (h : exec i s = .next t) : ChangesOnlyListed i s t := by
  obtain ⟨e, -, rfl⟩ | ⟨-, hdone⟩ := exec_cases h
  · exact s.withErr_changesOnlyListed i _
  · exact hdone.frame

/-- Settles O11: none of these fields is among those a command may change. -/
theorem commandsLeaveTheHostsStateAlone : Obligations.CommandsLeaveTheHostsStateAlone := by
  intro i s t h
  rw [exec_changesOnlyListed h]
  exact ⟨rfl, rfl, rfl, rfl, rfl, rfl, rfl, rfl⟩

/-- Settles O12: each of these fields is changed by the commands listed for it alone. -/
theorem onlyTheListedCommandsWriteResults : Obligations.OnlyTheListedCommandsWriteResults := by
  intro i s t h
  rw [exec_changesOnlyListed h]
  refine ⟨fun hi => if_neg (by simp [hi]), fun hi => if_neg (by simp [hi]), fun hi => ?_, fun hi => ?_⟩
  · simp only [hi, Bool.false_eq_true, if_false, implies_true, and_self]
  · simp only [hi, Bool.false_eq_true, if_false, and_self]

/-- Settles O16: a command that succeeds writes an output within its bound, and OUT_LEN is no more than its length. -/
theorem outputFitsItsBound : Obligations.OutputFitsItsBound := by
  intro i s t h hok
  have hbound (hi : writesOut i = true) : t.outLen.toNat ≤ outputBound i s := by
    obtain ⟨bs, hlen, -, hout⟩ := (exec_succeeded h hok).output hi
    rw [hout]
    exact (Nat.mod_le _ _).trans hlen
  refine ⟨?_, ?_, ?_, ?_, ?_, ?_⟩
  case refine_4 => rintro (rfl | rfl | rfl) <;> exact hbound rfl
  all_goals rintro rfl; exact hbound rfl

/-- A command that does not read IN always ends (60_exceptions.md R216). -/
theorem exec_of_not_readsInput {i : Instr} (hi : readsInput i = false) (s : State) : ∃ t, exec i s = .next t := by
  cases i with
  | cfgStd | cfgBe | cfgVar | cfgLimit | zzEnc32 | zzEnc64 | zzDec64 | lebEnc | lpEnc | fxEnc => exact ⟨_, rfl⟩
  | cfgFixw n => rw [exec_cfgFixw]; exact s.conclude_ends _ _
  | zzDec32 | serI32 | serU32 | serI64 => exact s.conclude_ends _ _
  | _ => cases hi

/-- A command that reads IN goes on with its input and then ends (20_memory.md R53). -/
theorem exec_of_readsInput {i : Instr} (hi : readsInput i = true) (s : State) :
    ∃ k, exec i s = s.withInput k ∧ ∀ bs, ∃ t, k bs = .next t := by
  cases i with
  | lebDec | blobSer | lpDec | blobDes | fxDecs | fxDecu | desI32 | desU32 | desI64 =>
    exact ⟨_, rfl, fun _ => s.conclude_ends _ _⟩
  | _ => cases hi

/-- Settles O7: the one refusal is that of `State.withInput`, which is there when MemRead finds a byte unwritten. -/
theorem everyCommandEndsOrIsRefusedForUnwrittenInput : Obligations.EveryCommandEndsOrIsRefusedForUnwrittenInput := by
  intro i s
  rw [← State.memRead_eq_none]
  refine ⟨fun ⟨hi, hnone⟩ => ?_, fun hnot => ?_⟩
  · obtain ⟨k, hexec, -⟩ := exec_of_readsInput hi s
    rw [hexec, State.withInput, hnone]
  · cases hi : readsInput i with
    | false => exact exec_of_not_readsInput hi s
    | true =>
      obtain ⟨k, hexec, hends⟩ := exec_of_readsInput hi s
      rw [hexec, State.withInput]
      cases hread : s.memRead with
      | none => exact absurd ⟨hi, hread⟩ hnot
      | some bs => exact hends bs

end Sys2Proof.Machine
end

section
/-! SUPPORT. What one host access can do, said once (spec 70_reset_and_hazards.md R230, R233, R238; 10_state.md R22 to
R34): where a register access goes, the effect of each access, the invariant of a legal state, and the obligations
about steps. -/

namespace Sys2Proof.Machine

/-- A register is accessed at its own offset with its own width alone (10_state.md R34). -/
theorem regTarget_eq_reg_iff {offset bits : Nat} {r : Reg} :
    regTarget offset bits = .reg r ↔ offset = r.offset ∧ bits = r.width := by
  constructor
  · intro h
    unfold regTarget at h
    split at h
    next r' hfind =>
      split_ifs at h with hbits
      cases h
      have hoffset := List.find?_some hfind
      exact ⟨(of_decide_eq_true hoffset).symm, hbits⟩
    next => split_ifs at h
  · rintro ⟨rfl, rfl⟩
    cases r <;> rfl

/-- What a host access that is answered has done from `s` to `t`, its place in the queue apart (R238). -/
inductive AccessEffect (x : HostAccess) (s : State) : State → Prop
  /-- an ignored write (10_state.md R32, R33; 20_memory.md R52) -/
  | ignored : AccessEffect x s s
  /-- a read (20_memory.md R59) -/
  | replied (v : Word) : AccessEffect x s { s with hostReply := some v }
  /-- a write of CMD (R23) -/
  | ran {data : Word} {t : State} (hx : x = .writeReg 0x00 32 data)
      (hrun : runCommand (data.extractLsb' 0 32) s = .next t) : AccessEffect x s t
  /-- a write of VAL (R27) -/
  | wroteVal (v : Word) : AccessEffect x s { s with val := v }
  /-- a write of IN_LEN (R30) -/
  | wroteInLen (v : Word) (hv : v.toNat ≤ s.params.inCap) : AccessEffect x s { s with inLen := v }
  /-- a write of a byte of IN (20_memory.md R51) -/
  | wroteIn (a : Nat) (b : Byte) (ha : a < s.params.inCap) : AccessEffect x s { s with inBuf := s.inBuf.write a b }
  /-- the reset event (R230) -/
  | wasReset (hx : x = .reset) : AccessEffect x s s.afterReset

theorem hostWriteTo_effect {r : Reg} {data : Word} {s t : State} (h : hostWriteTo r data s = .next t) :
    AccessEffect (.writeReg r.offset r.width data) s t := by
  cases r with
  | cmd => exact .ran rfl h
  | val => cases h; exact .wroteVal data
  | inLen =>
    rw [hostWriteTo, hostWriteInLen] at h
    split_ifs at h with hcap
    cases h
    exact .wroteInLen data hcap
  | status | ctrl | limit | res | cnt | outLen => cases h; exact .ignored

/-- Every access that is answered has one of these effects. -/
theorem hostAccess_effect {x : HostAccess} {s t : State} (h : hostAccess x s = .next t) : AccessEffect x s t := by
  cases x with
  | readReg offset bits =>
    rw [hostAccess, hostReadReg] at h
    split at h <;> cases h <;> exact .replied _
  | writeReg offset bits data =>
    rw [hostAccess, hostWriteReg] at h
    split at h
    next r htarget =>
      obtain ⟨rfl, rfl⟩ := regTarget_eq_reg_iff.1 htarget
      exact hostWriteTo_effect h
    next => cases h; exact .ignored
    next => cases h
  | readIn a =>
    rw [hostAccess, hostReadIn] at h
    split_ifs at h
    cases h; exact .replied _
  | writeIn a b =>
    rw [hostAccess, hostWriteIn] at h
    split_ifs at h with ha
    cases h; exact .wroteIn a b ha
  | readOut a =>
    rw [hostAccess, hostReadOut] at h
    split_ifs at h
    cases h; exact .replied _
  | writeOut a b =>
    rw [hostAccess, hostWriteOut] at h
    split_ifs at h
    cases h; exact .ignored
  | reset => cases h; exact .wasReset rfl

/-- Settles O6: the empty queue is the first branch of `hostStep`. -/
theorem idleStepChangesNothing : Obligations.IdleStepChangesNothing := by
  intro s h
  rw [step, hostStep, h]

/-- A step that is answered was idle, or took the first access of the queue. -/
theorem step_cases {s t : State} (h : step s = .next t) :
    t = s ∨ ∃ x rest, s.hostQueue = x :: rest ∧ AccessEffect x { s with hostQueue := rest } t := by
  cases hq : s.hostQueue with
  | nil => exact .inl (Host.Outcome.next.inj (h.symm.trans (idleStepChangesNothing s hq)))
  | cons x rest => exact .inr ⟨x, rest, rfl, hostAccess_effect ((step_of_hostQueue hq).symm.trans h)⟩

/-- A write of CMD that is answered ran the decoded command, or raised IllegalCommand (10_state.md R23). -/
theorem runCommand_cases {w : Half} {s t : State} (h : runCommand w s = .next t) :
    (∃ i, decode w = .ok i ∧ exec i { s with cmd := w } = .next t) ∨ t = { s with cmd := w, status := 9 } := by
  by_cases hok : ∃ i, decode w = .ok i
  · obtain ⟨i, hi⟩ := hok
    rw [runCommand, hi] at h
    exact .inl ⟨i, hi, h⟩
  · exact .inr (Host.Outcome.next.inj (h.symm.trans (runCommand_of_not_decode s hok)))

/-- Settles O5: the access is the write of CMD, and the word decodes. -/
theorem stepRunsTheDecodedCommand : Obligations.StepRunsTheDecodedCommand := by
  intro s data rest i hq hdec _
  rw [step_of_cmdWrite hq, runCommand, hdec]

/-- Settles O13: of the effects of an access only a command and the reset touch CTRL or LIMIT, and of the commands only
the CFG commands. -/
theorem onlyConfigurationCommandsAndResetChangeTheConfiguration :
    Obligations.OnlyConfigurationCommandsAndResetChangeTheConfiguration := by
  intro s t h hdiff
  obtain rfl | ⟨x, rest, hq, heffect⟩ := step_cases h
  · simp at hdiff
  cases heffect with
  | ignored | replied | wroteVal | wroteInLen | wroteIn => simp at hdiff
  | wasReset hx => exact .inl ⟨rest, hx ▸ hq⟩
  | @ran data _ hx hrun =>
    obtain ⟨i, hdec, hexec⟩ | rfl := runCommand_cases hrun
    · refine .inr ⟨data, rest, i, hx ▸ hq, hdec, ?_⟩
      by_contra hi
      obtain ⟨hctrl, hlimit⟩ := exec_keepsConfig _ (Bool.eq_false_of_not_eq_true hi) t hexec
      simp [hctrl, hlimit] at hdiff
    · simp at hdiff

/-- The state after reset is legal under legal parameters (70_reset_and_hazards.md R231, R232). -/
theorem State.afterReset_inv {s : State} (h : s.params.Legal) : s.afterReset.Inv :=
  ⟨h, (by decide : (0 : Half).toNat ≤ 9), (by decide : (0xC : Half).toNat < 16), Nat.zero_le _, Nat.zero_le _, rfl,
    rfl, rfl, rfl, nofun⟩

/-- Settles O18: `State.reset` is what the reset event leaves, under legal parameters. -/
theorem resetMeetsTheInvariant : Obligations.ResetMeetsTheInvariant :=
  State.afterReset_inv (s := State.reset) ⟨by decide, by decide⟩

/-- The clauses of the invariant about OUT (20_memory.md R52, R54). -/
def OutputLegal (m : Memory) (len : Word) (cap : Nat) : Prop :=
  len.toNat ≤ cap ∧ m.wf = true ∧ m.within cap = true ∧ ∀ a < len.toNat, (m.read a).isSome = true

theorem OutputLegal.writeRange {m : Memory} {len : Word} {cap : Nat} (h : OutputLegal m len cap) {bs : List Byte}
    (hbs : bs.length ≤ cap) : OutputLegal (m.writeRange 0 bs) (wordOfNat bs.length) cap := by
  obtain ⟨-, hwf, hwithin, -⟩ := h
  have hlen : (wordOfNat bs.length).toNat ≤ bs.length := Nat.mod_le _ _
  refine ⟨hlen.trans hbs, m.writeRange_wf 0 bs hwf, m.writeRange_within 0 cap bs hwithin (by omega), fun a ha => ?_⟩
  rw [Memory.read_writeRange, if_pos (by omega), Nat.sub_zero, List.getElem?_eq_getElem (by omega)]
  rfl

/-- The output of every command fits in a legal block (00_scope.md R6). -/
theorem State.Inv.outputBound_le {s : State} (h : s.Inv) (i : Instr) : outputBound i s ≤ s.params.outCap := by
  obtain ⟨⟨hin, hout⟩, -, -, hinLen, -⟩ := h
  cases i <;> simp only [outputBound] <;> omega

/-- A command that succeeds leaves a legal state. -/
theorem Succeeded.inv {i : Instr} {s t : State} (h : Succeeded i s t) (hok : t.status = 0) (hs : s.Inv) : t.Inv := by
  have hbound := hs.outputBound_le i
  obtain ⟨hparams, -, hctrl, hinLen, houtLen, hinWf, hinWithin, houtWf, houtWithin, hwritten⟩ := hs
  have hold : OutputLegal s.outBuf s.outLen s.params.outCap := ⟨houtLen, houtWf, houtWithin, hwritten⟩
  have hnew : OutputLegal t.outBuf t.outLen s.params.outCap := by
    cases hi : writesOut i with
    | false =>
      rw [h.frame]
      simpa only [hi, Bool.false_eq_true, if_false] using hold
    | true =>
      obtain ⟨bs, hlen, hbuf, hout⟩ := h.output hi
      rw [hbuf, hout]
      exact hold.writeRange (hlen.trans hbound)
  have hctrl' : t.ctrl.toNat < 16 := by
    obtain hkept | hlt := h.ctrl
    · rwa [hkept]
    · exact hlt
  have hkeeps : t.params = s.params ∧ t.inLen = s.inLen ∧ t.inBuf = s.inBuf := by
    rw [h.frame]
    exact ⟨rfl, rfl, rfl⟩
  obtain ⟨hp, hl, hb⟩ := hkeeps
  obtain ⟨houtLen', houtWf', houtWithin', hwritten'⟩ := hnew
  rw [State.Inv, hp, hl, hb, hok]
  exact ⟨hparams, by decide, hctrl', hinLen, houtLen', hinWf, hinWithin, houtWf', houtWithin', hwritten'⟩

/-- STATUS takes any code up to 9 in a legal state (10_state.md R24). -/
theorem State.Inv.withStatus {s : State} (h : s.Inv) {status : Half} (hle : status.toNat ≤ 9) :
    { s with status := status : State }.Inv := by
  obtain ⟨hparams, -, hrest⟩ := h
  exact ⟨hparams, hle, hrest⟩

/-- Every command keeps the invariant. -/
theorem exec_inv {i : Instr} {s t : State} (hs : s.Inv) (h : exec i s = .next t) : t.Inv := by
  obtain ⟨e, -, rfl⟩ | ⟨hok, hdone⟩ := exec_cases h
  · exact hs.withStatus ((s.withErr_status_toNat e).trans_le e.code_bounds.2)
  · exact hdone.inv hok hs

/-- Settles O17: each effect of an access keeps the invariant, a command by what it may write. -/
theorem stepKeepsTheInvariant : Obligations.StepKeepsTheInvariant := by
  intro s t hs h
  obtain rfl | ⟨x, rest, -, heffect⟩ := step_cases h
  · exact hs
  cases heffect with
  | ignored | replied | wroteVal => exact hs
  | ran _ hrun =>
    obtain ⟨i, -, hexec⟩ | rfl := runCommand_cases hrun
    · exact exec_inv (by exact hs) hexec
    · exact State.Inv.withStatus hs (by decide)
  | wroteInLen v hv =>
    obtain ⟨hparams, hstatus, hctrl, -, hrest⟩ := hs
    exact ⟨hparams, hstatus, hctrl, hv, hrest⟩
  | wroteIn a b ha =>
    obtain ⟨hparams, hstatus, hctrl, hinLen, houtLen, hwf, hwithin, hrest⟩ := hs
    exact ⟨hparams, hstatus, hctrl, hinLen, houtLen, s.inBuf.write_wf a b hwf,
      s.inBuf.write_within a _ b hwithin ha, hrest⟩
  | wasReset => exact State.afterReset_inv hs.1

end Sys2Proof.Machine
end

section
/-! SUPPORT. What a command reads (spec 10_state.md R36, 20_memory.md R56, R59): the byte order and the mode it runs in,
that nothing else of the state enters, and the obligations about these. -/

namespace Sys2Proof.Machine

/-- Settles O14: CFG.BE leaves BigEndian, CFG.STD LittleEndian, and every other command the order there was. -/
theorem onlyStdAndBeChangeTheByteOrder : Obligations.OnlyStdAndBeChangeTheByteOrder := by
  intro i s t h hdiff
  by_cases hbe : i = .cfgBe
  · subst hbe
    cases (exec_cfgBe s).symm.trans h
    exact .inl ⟨rfl, by rw [State.cfg_setBO]⟩
  by_cases hstd : i = .cfgStd
  · subst hstd
    cases (exec_cfgStd s).symm.trans h
    obtain ⟨-, hdefault, -⟩ := cfgStdLoadsTheDefault
    exact .inr ⟨rfl, by rw [(hdefault s).2]⟩
  exact absurd (exec_byteOrder hstd hbe h) hdiff

theorem ErrKind.code_injective {e k : ErrKind} (h : e.code.toNat = k.code.toNat) : e = k := by
  cases e <;> cases k <;> simp [ErrKind.code] at h ⊢

/-- A command whose function does not raise a kind does not end with its code (60_exceptions.md R200). -/
theorem State.conclude_errCode_ne {α : Type} {s t : State} {r : Except ErrKind α} {w : α → State → State} {k : ErrKind}
    (hr : r ≠ .error k) (h : s.conclude r w = .next t) : t.errCode ≠ k.code.toNat := by
  obtain ⟨e, rfl, herr⟩ | ⟨a, -, herr⟩ := State.errCode_of_conclude h
  · rw [herr]
    exact fun hcode => hr (congrArg _ (ErrKind.code_injective hcode))
  · rw [herr]
    exact Nat.ne_of_lt k.code_bounds.1

/-- In Fixed mode a prefix has no marker (41_length_prefix.md R101). -/
theorem lpDecode_ne_invalidMarker {cfg : Cfg} (h : cfg.mode = .fixed) (bs : List Byte) :
    lpDecode bs cfg ≠ .error .invalidMarker := by
  simp only [lpDecode, h, lpDecodeFixed]
  split_ifs <;> simp

theorem blobDeserialize_ne_invalidMarker {cfg : Cfg} (h : cfg.mode = .fixed) (wire : List Byte) (hostSizeMax : Nat) :
    blobDeserialize wire cfg hostSizeMax ≠ .error .invalidMarker := by
  intro hraise
  by_cases hne : wire = []
  · subst hne; cases hraise
  rw [blobDeserialize_of_ne_nil _ _ hne] at hraise
  cases hlp : lpDecode wire cfg with
  | error e =>
    rw [hlp] at hraise
    cases hraise
    exact lpDecode_ne_invalidMarker h wire hlp
  | ok r =>
    rw [hlp] at hraise
    exact absurd (blobUnframe_error hraise) (by decide)

theorem recordValue_ne_invalidMarker {cfg : Cfg} (h : cfg.mode = .fixed) (wire : List Byte) (wd : Nat) (signed : Bool)
    (params : Params) : recordValue wire wd signed cfg params ≠ .error .invalidMarker := by
  intro hraise
  obtain hblob | ⟨p, hvalue⟩ := recordValue_error hraise
  · exact blobDeserialize_ne_invalidMarker h _ _ hblob
  · exact absurd (intValue_error hvalue) (by decide)

/-- A command that ends with a kind's code may raise that kind (60_exceptions.md R200). -/
theorem exec_mayRaise {i : Instr} {s t : State} {k : ErrKind} (h : exec i s = .next t)
    (hcode : t.errCode = k.code.toNat) : k ∈ mayRaise i := by
  obtain hok | ⟨e, hkind, rfl⟩ := exec_succeedsOrRaises i s t h
  · rw [State.errCode, hok] at hcode
    exact absurd hcode (Nat.ne_of_lt k.code_bounds.1)
  · rw [← State.withErr_code, State.errCode_raise] at hcode
    exact ErrKind.code_injective hcode ▸ hkind

/-- Settles O10: the commands that may raise InvalidMarker read a length prefix, which in Fixed mode does not raise
it. -/
theorem invalidMarkerOnlyInVariableMode : Obligations.InvalidMarkerOnlyInVariableMode := by
  intro i s t h hsix
  have hmay : ErrKind.invalidMarker ∈ mayRaise i := exec_mayRaise h hsix
  by_contra hvar
  have hfixed : s.cfg.mode = .fixed := by
    cases hm : s.cfg.mode with
    | fixed => rfl
    | variableLen => exact absurd hm hvar
  cases i with
  | lpDec =>
    obtain ⟨bs, -, hrun⟩ := State.withInput_of_next h
    exact State.conclude_errCode_ne (lpDecode_ne_invalidMarker hfixed bs) hrun hsix
  | blobDes =>
    obtain ⟨wire, -, hrun⟩ := State.withInput_of_next h
    exact State.conclude_errCode_ne (blobDeserialize_ne_invalidMarker hfixed wire _) hrun hsix
  | desI32 | desU32 | desI64 =>
    obtain ⟨wire, -, hrun⟩ := State.withInput_of_next h
    exact State.conclude_errCode_ne (recordValue_ne_invalidMarker hfixed wire _ _ _) hrun hsix
  | _ => simp [mayRaise] at hmay

/-- `s` and `s'` are equal in all that a command reads (10_state.md R36). -/
structure SameInputs (s s' : State) : Prop where
  ctrl : s'.ctrl = s.ctrl
  limit : s'.limit = s.limit
  val : s'.val = s.val
  inLen : s'.inLen = s.inLen
  inBuf : s'.inBuf = s.inBuf
  params : s'.params = s.params

/-- The configuration is read from CTRL and LIMIT alone (00_scope.md R11). -/
theorem State.cfg_congr {s s' : State} (hctrl : s'.ctrl = s.ctrl) (hlimit : s'.limit = s.limit) : s'.cfg = s.cfg := by
  rw [State.cfg_eq, State.cfg_eq, hctrl, hlimit]

theorem SameInputs.cfg {s s' : State} (h : SameInputs s s') : s'.cfg = s.cfg := State.cfg_congr h.ctrl h.limit

theorem SameInputs.valLow {s s' : State} (h : SameInputs s s') : s'.valLow = s.valLow := by
  rw [State.valLow, State.valLow, h.val]

theorem SameInputs.ctrlWord {s s' : State} (h : SameInputs s s') : s'.ctrlWord = s.ctrlWord := by
  rw [State.ctrlWord, State.ctrlWord, h.ctrl]

theorem SameInputs.memRead {s s' : State} (h : SameInputs s s') : s'.memRead = s.memRead := by
  rw [State.memRead, State.memRead, h.inBuf, h.inLen]

/-- `t` and `t'` agree in the configuration and in the results that `i` writes (R36). -/
structure SameResults (i : Instr) (t t' : State) : Prop where
  ctrl : t'.ctrl = t.ctrl
  limit : t'.limit = t.limit
  res : writesRes i = true → t'.res = t.res
  cnt : writesCnt i = true → t'.cnt = t.cnt
  out : writesOut i = true → t'.outLen = t.outLen ∧ ∀ a < t.outLen.toNat, t'.outBuf.read a = t.outBuf.read a

/-- When `o` ends, so does `o'`, with the same STATUS, configuration and, on success, results of `i`. -/
def EndsAlike (i : Instr) (o o' : Host.Outcome State Fault Refusal) : Prop :=
  ∀ t, o = .next t → ∃ t', o' = .next t' ∧ t'.status = t.status ∧ t'.ctrl = t.ctrl ∧ t'.limit = t.limit ∧
    (t.status = 0 → SameResults i t t')

theorem SameResults.complete {i : Instr} {u u' : State} (h : SameResults i u u') :
    EndsAlike i u.complete u'.complete := by
  rintro t ⟨⟩
  exact ⟨_, rfl, rfl, h.ctrl, h.limit, fun _ => ⟨h.ctrl, h.limit, h.res, h.cnt, h.out⟩⟩

theorem SameInputs.conclude {i : Instr} {s s' : State} (h : SameInputs s s') {α : Type} {r r' : Except ErrKind α}
    {w w' : α → State → State} (hr : r' = r) (hw : ∀ a, SameResults i (w a s) (w' a s')) :
    EndsAlike i (s.conclude r w) (s'.conclude r' w') := by
  subst hr
  cases r' with
  | ok a => exact (hw a).complete
  | error e =>
    rw [State.conclude_error, State.conclude_error]
    rintro t ⟨⟩
    exact ⟨_, rfl, rfl, h.ctrl, h.limit, fun hok => absurd hok (s.withErr_status_ne_zero e)⟩

theorem SameInputs.withInput {i : Instr} {s s' : State} (h : SameInputs s s')
    {k k' : List Byte → Host.Outcome State Fault Refusal} (hk : ∀ bs, EndsAlike i (k bs) (k' bs)) :
    EndsAlike i (s.withInput k) (s'.withInput k') := by
  rw [State.withInput, State.withInput, h.memRead]
  cases s.memRead with
  | none => rintro t ⟨⟩
  | some bs => exact hk bs

/-- Writing the same output on two buffers makes them agree below OUT_LEN (20_memory.md R54). -/
theorem State.read_memWrite (s s' : State) (bs : List Byte) {a : Nat} (ha : a < (s.memWrite bs).outLen.toNat) :
    (s'.memWrite bs).outBuf.read a = (s.memWrite bs).outBuf.read a := by
  have hlen : a < bs.length := ha.trans_le (Nat.mod_le _ _)
  simp only [State.memWrite_outBuf, Memory.read_writeRange, Nat.zero_le, Nat.zero_add, hlen, and_self, if_true]

theorem SameInputs.memWrite {s s' : State} (h : SameInputs s s') {i : Instr} (hres : writesRes i = false)
    (hcnt : writesCnt i = false) {bs bs' : List Byte} (hbs : bs' = bs) :
    SameResults i (s.memWrite bs) (s'.memWrite bs') := by
  subst hbs
  exact ⟨h.ctrl, h.limit, by simp [hres], by simp [hcnt], fun _ => ⟨rfl, fun _ => s.read_memWrite s' bs'⟩⟩

/-- Every command ends alike in two states that are equal in what it reads. -/
theorem SameInputs.exec {s s' : State} (h : SameInputs s s') (i : Instr) : EndsAlike i (exec i s) (exec i s') := by
  cases i with
  | cfgStd =>
    rw [exec_cfgStd, exec_cfgStd]
    rintro t ⟨⟩
    exact ⟨_, rfl, rfl, rfl, rfl, fun _ => ⟨rfl, rfl, nofun, nofun, nofun⟩⟩
  | cfgBe | cfgVar =>
    have hctrl (c : Half) : (s'.ctrl &&& 0xF) ||| c = (s.ctrl &&& 0xF) ||| c := by rw [h.ctrl]
    simp only [exec_cfgBe, exec_cfgVar, hctrl]
    rintro t ⟨⟩
    exact ⟨_, rfl, rfl, rfl, h.limit, fun _ => ⟨rfl, h.limit, nofun, nofun, nofun⟩⟩
  | cfgFixw n =>
    rw [exec_cfgFixw, exec_cfgFixw]
    refine h.conclude rfl fun code => ⟨?_, h.limit, nofun, nofun, nofun⟩
    simp only [State.writeIW, State.writeMode, State.writeCtrl_ctrl, State.ctrlWord_writeCtrl, h.ctrlWord]
  | cfgLimit => exact SameResults.complete ⟨h.ctrl, h.val, nofun, nofun, nofun⟩
  | zzEnc32 =>
    exact SameResults.complete ⟨h.ctrl, h.limit,
      fun _ => congrArg (fun v => wordOfNat (zz (BitVec.toInt v))) h.valLow, nofun, nofun⟩
  | zzEnc64 =>
    exact SameResults.complete ⟨h.ctrl, h.limit,
      fun _ => congrArg (fun v => wordOfNat (zz (BitVec.toInt v))) h.val, nofun, nofun⟩
  | zzDec64 =>
    exact SameResults.complete ⟨h.ctrl, h.limit,
      fun _ => congrArg (fun v => wordOfInt (unzz (BitVec.toNat v))) h.val, nofun, nofun⟩
  | zzDec32 =>
    rw [exec_zzDec32, exec_zzDec32, h.val]
    exact h.conclude rfl fun v => ⟨h.ctrl, h.limit, fun _ => rfl, nofun, nofun⟩
  | lebEnc => exact (h.memWrite rfl rfl (congrArg (fun v => leb128Encode (BitVec.toNat v)) h.val)).complete
  | lpEnc =>
    rw [exec_lpEnc, exec_lpEnc, h.val, h.cfg]
    exact (h.memWrite rfl rfl rfl).complete
  | fxEnc =>
    refine (h.memWrite rfl rfl ?_).complete
    rw [h.val, h.cfg]
  | serI32 | serU32 =>
    refine h.conclude ?_ fun bs => h.memWrite rfl rfl rfl
    rw [h.valLow, h.cfg]
  | serI64 =>
    refine h.conclude ?_ fun bs => h.memWrite rfl rfl rfl
    rw [h.val, h.cfg]
  | blobSer =>
    refine h.withInput fun data => h.conclude ?_ fun bs => h.memWrite rfl rfl rfl
    rw [h.cfg]
  | lebDec =>
    refine h.withInput fun bs => h.conclude ?_ fun r => ⟨h.ctrl, h.limit, fun _ => rfl, fun _ => rfl, nofun⟩
    rw [h.params]
  | lpDec =>
    refine h.withInput fun bs => h.conclude ?_ fun r => ⟨h.ctrl, h.limit, fun _ => rfl, fun _ => rfl, nofun⟩
    rw [h.cfg]
  | fxDecs | fxDecu =>
    refine h.withInput fun bs => h.conclude ?_ fun w => ⟨h.ctrl, h.limit, fun _ => rfl, fun _ => ?_, nofun⟩
    · rw [h.cfg]
    · simp only [State.writeCnt_cnt, h.cfg]
  | blobDes =>
    refine h.withInput fun wire => h.conclude ?_ fun r => ⟨h.ctrl, h.limit, fun _ => rfl, fun _ => ?_,
      fun _ => ⟨rfl, fun _ => s.read_memWrite s' r.1⟩⟩
    · rw [h.cfg, h.params]
    · simp only [State.writeCnt_cnt, h.inLen]
  | desI32 | desU32 | desI64 =>
    refine h.withInput fun wire => h.conclude ?_ fun v => ⟨h.ctrl, h.limit, fun _ => rfl, fun _ => ?_, nofun⟩
    · rw [h.cfg, h.params]
    · simp only [State.writeCnt_cnt, h.inLen]

/-- Settles O15: each command computes what it writes from the fields that are equal. -/
theorem commandResultsDoNotDependOnHiddenState : Obligations.CommandResultsDoNotDependOnHiddenState := by
  intro i s s' t hctrl hlimit hval hinLen hinBuf hparams h
  have hsame : SameInputs s s' := ⟨hctrl, hlimit, hval, hinLen, hinBuf, hparams⟩
  obtain ⟨t', hexec, hstatus, hctrl', hlimit', hresults⟩ := hsame.exec i t h
  refine ⟨t', hexec, hstatus, hctrl', hlimit', fun hok => ?_⟩
  exact ⟨(hresults hok).res, (hresults hok).cnt, (hresults hok).out⟩

end Sys2Proof.Machine
end

section
/-! SUPPORT. The host interface (spec 10_state.md R22, R32 to R34, 20_memory.md R51, R52, R59): register and buffer
accesses by their offsets, that reads have no side effect, and the obligations about host accesses and the
observation. -/

namespace Sys2Proof.Machine

/-- A register access at its own offset and width reaches the register (R34). -/
@[simp] theorem regTarget_reg (r : Reg) : regTarget r.offset r.width = .reg r := regTarget_eq_reg_iff.2 ⟨rfl, rfl⟩

/-- The accesses below 0x40 that are answered: each register's, and the word 0x0C (R22, R34). -/
def wholeAccesses : List (Nat × Nat) :=
  [(0x00, 32), (0x04, 32), (0x08, 32), (0x0C, 32), (0x10, 64), (0x18, 64), (0x20, 64), (0x28, 64), (0x30, 64),
    (0x38, 64)]

theorem Reg.offset_width_mem_wholeAccesses (r : Reg) : (r.offset, r.width) ∈ wholeAccesses := by
  cases r <;> decide

/-- Below 0x40 every other access goes nowhere (R34). -/
theorem regTarget_eq_noAccess {offset bits : Nat} (hlow : offset < 0x40) (h : (offset, bits) ∉ wholeAccesses) :
    regTarget offset bits = .noAccess := by
  unfold regTarget
  split
  next r hfind =>
    have hoffset := List.find?_some hfind
    refine if_neg fun hbits => h ?_
    rw [← of_decide_eq_true hoffset, hbits]
    exact r.offset_width_mem_wholeAccesses
  next =>
    rw [if_neg (Nat.not_le_of_gt hlow)]
    split_ifs with h0C hbits
    · subst h0C hbits
      exact absurd (by decide) h
    · rfl
    · rfl

/-- Settles O54: such an access goes nowhere, whether it reads or writes. -/
theorem partialRegisterAccessIsRefused : Obligations.PartialRegisterAccessIsRefused := by
  intro s rest offset bits v hlow hpair hq
  have htarget := regTarget_eq_noAccess hlow hpair
  rcases hq with hq | hq
  · rw [step_of_hostQueue hq, hostAccess, hostReadReg, htarget]
  · rw [step_of_hostQueue hq, hostAccess, hostWriteReg, htarget]

/-- The data of a host read depends on neither the queue nor the last reply (20_memory.md R59). -/
def RepliesWith (x : HostAccess) (v : Word) (s : State) : Prop :=
  ∀ queue reply, hostAccess x { s with hostQueue := queue, hostReply := reply } =
    .next { s with hostQueue := queue, hostReply := some v }

/-- A host read: a read of a register or of a byte of IN or OUT (R238). -/
def HostAccess.IsRead (x : HostAccess) : Prop :=
  (∃ offset bits, x = .readReg offset bits) ∨ (∃ a, x = .readIn a) ∨ (∃ a, x = .readOut a)

/-- A read that is answered once is answered with that data under every queue and reply. -/
theorem HostAccess.IsRead.repliesWith {x : HostAccess} (hx : x.IsRead) {s t : State} (h : hostAccess x s = .next t) :
    ∃ v, RepliesWith x v s := by
  rcases hx with ⟨offset, bits, rfl⟩ | ⟨a, rfl⟩ | ⟨a, rfl⟩
  · rw [hostAccess, hostReadReg] at h
    cases htarget : regTarget offset bits with
    | reg r =>
      refine ⟨s.regValue r, fun queue reply => ?_⟩
      rw [hostAccess, hostReadReg, htarget]
      cases r <;> rfl
    | reserved => exact ⟨0, fun queue reply => by rw [hostAccess, hostReadReg, htarget]; rfl⟩
    | noAccess => rw [htarget] at h; cases h
  · rw [hostAccess, hostReadIn] at h
    split_ifs at h with ha
    exact ⟨(s.inByte a).zeroExtend 64, fun queue reply => if_pos ha⟩
  · rw [hostAccess, hostReadOut] at h
    split_ifs at h with ha
    exact ⟨(s.outByte a).zeroExtend 64, fun queue reply => if_pos ha⟩

/-- Settles O56: both reads reply with the one data. -/
theorem readsHaveNoSideEffectAndRepeat : Obligations.ReadsHaveNoSideEffectAndRepeat := by
  intro s t x rest hx hq h
  rw [step_of_hostQueue hq] at h
  obtain ⟨v, hreply⟩ := HostAccess.IsRead.repliesWith hx h
  cases (hreply (x :: rest) s.hostReply).symm.trans h
  refine ⟨rfl, ?_⟩
  rw [step_of_hostQueue rfl]
  exact hreply rest (some v)

/-- A write of a register at its own offset and width (10_state.md R33). -/
theorem step_of_writeReg {s : State} {r : Reg} {v : Word} {rest : List HostAccess}
    (h : s.hostQueue = .writeReg r.offset r.width v :: rest) :
    step s = hostWriteTo r v { s with hostQueue := rest } := by
  rw [step_of_hostQueue h, hostAccess, hostWriteReg, regTarget_reg]

/-- A read of a register at its own offset and width (R34). -/
theorem step_of_readReg {s : State} {r : Reg} {rest : List HostAccess}
    (h : s.hostQueue = .readReg r.offset r.width :: rest) :
    step s = .next { s with hostQueue := rest, hostReply := some (s.regValue r) } := by
  rw [step_of_hostQueue h, hostAccess, hostReadReg, regTarget_reg]
  cases r <;> rfl

/-- An access of a reserved offset in a width the bus has (R32). -/
theorem regTarget_eq_reserved {offset bits : Nat} (h : 0x40 ≤ offset) (hbits : bits = 32 ∨ bits = 64) :
    regTarget offset bits = .reserved := by
  have hnone : (allRegs.find? fun r => decide (r.offset = offset)) = none :=
    List.find?_eq_none.2 fun r _ hr => r.offset_not_reserved (of_decide_eq_true hr ▸ .inr h)
  unfold regTarget
  rw [hnone]
  dsimp only
  rw [if_neg (by omega), if_pos h, if_pos hbits]

theorem step_of_readReg_reserved {s : State} {offset bits : Nat} {rest : List HostAccess}
    (htarget : regTarget offset bits = .reserved) (h : s.hostQueue = .readReg offset bits :: rest) :
    step s = .next { s with hostQueue := rest, hostReply := some 0 } := by
  rw [step_of_hostQueue h, hostAccess, hostReadReg, htarget]
  rfl

theorem step_of_writeReg_reserved {s : State} {offset bits : Nat} {v : Word} {rest : List HostAccess}
    (htarget : regTarget offset bits = .reserved) (h : s.hostQueue = .writeReg offset bits v :: rest) :
    step s = .next { s with hostQueue := rest } := by
  rw [step_of_hostQueue h, hostAccess, hostWriteReg, htarget]

theorem State.statusWord_toNat (s : State) : s.statusWord.toNat = s.status.toNat % 16 := by
  change (s.status &&& ctrlMask).toNat = _
  rw [ctrl_low, BitVec.toNat_ofNat]
  omega

/-- The number a register reads as, reserved bits 0 (10_state.md R23 to R32). -/
theorem State.regValue_toNat (s : State) (r : Reg) :
    (s.regValue r).toNat = match r with
      | .cmd => s.cmd.toNat
      | .status => s.status.toNat % 16
      | .ctrl => s.ctrl.toNat % 16
      | .limit => s.limit.toNat
      | .val => s.val.toNat
      | .res => s.res.toNat
      | .cnt => s.cnt.toNat
      | .inLen => s.inLen.toNat
      | .outLen => s.outLen.toNat := by
  cases r with
  | cmd => exact BitVec.toNat_setWidth_of_le (by decide)
  | status => exact (BitVec.toNat_setWidth_of_le (by decide)).trans s.statusWord_toNat
  | ctrl => exact (BitVec.toNat_setWidth_of_le (by decide)).trans s.ctrlWord_toNat
  | limit | val | res | cnt | inLen | outLen => rfl

/-- Settles O52: each offset and width is a register's own, or reserved. -/
theorem hostReadsEachRegister : Obligations.HostReadsEachRegister := by
  intro s rest
  refine ⟨?_, fun offset bits hoff hbits hq => step_of_readReg_reserved (regTarget_eq_reserved hoff hbits) hq⟩
  have hreg (r : Reg) (n : Nat) (hn : (s.regValue r).toNat = n) (hq : s.hostQueue = .readReg r.offset r.width :: rest) :
      step s = .next { s with hostQueue := rest, hostReply := some (BitVec.ofNat 64 n) } := by
    rw [step_of_readReg hq, ← hn, BitVec.ofNat_toNat, BitVec.setWidth_eq]
  simp only [List.forall_mem_cons, List.not_mem_nil, false_imp_iff, implies_true, and_true]
  exact ⟨hreg .cmd _ (s.regValue_toNat _), hreg .status _ (s.regValue_toNat _), hreg .ctrl _ (s.regValue_toNat _),
    hreg .limit _ rfl, hreg .val _ rfl, hreg .res _ rfl, hreg .cnt _ rfl, hreg .inLen _ rfl, hreg .outLen _ rfl,
    step_of_readReg_reserved rfl⟩

/-- Settles O53: each offset and width is a register's own, or reserved. -/
theorem hostWritesOnlyCmdValAndInLen : Obligations.HostWritesOnlyCmdValAndInLen := by
  intro s rest v
  refine ⟨step_of_writeReg (r := .val), fun hq hle => ?_, fun hq hgt => ?_, ?_, fun offset bits hoff hbits hq =>
    step_of_writeReg_reserved (regTarget_eq_reserved hoff hbits) hq⟩
  · exact (step_of_writeReg (r := .inLen) hq).trans (if_pos hle)
  · exact (step_of_writeReg (r := .inLen) hq).trans (if_neg (Nat.not_le_of_gt hgt))
  · simp only [List.forall_mem_cons, List.not_mem_nil, false_imp_iff, implies_true, and_true]
    exact ⟨step_of_writeReg (r := .status), step_of_writeReg (r := .ctrl), step_of_writeReg_reserved rfl,
      step_of_writeReg (r := .limit), step_of_writeReg (r := .res), step_of_writeReg (r := .cnt),
      step_of_writeReg (r := .outLen)⟩

/-- A host read of a written byte of IN returns it (20_memory.md R51). -/
theorem hostReadIn_of_written {s : State} {a : Nat} {b : Byte} (ha : a < s.params.inCap)
    (h : s.inBuf.read a = some b) : hostReadIn a s = s.reply (BitVec.ofNat 64 b.toNat) := by
  rw [hostReadIn, if_pos ha, State.inByte, h, BitVec.ofNat_toNat]

/-- A host read of a written byte of OUT returns it (R52). -/
theorem hostReadOut_of_written {s : State} {a : Nat} {b : Byte} (ha : a < s.params.outCap)
    (h : s.outBuf.read a = some b) : hostReadOut a s = s.reply (BitVec.ofNat 64 b.toNat) := by
  rw [hostReadOut, if_pos ha, State.outByte, h, BitVec.ofNat_toNat]

/-- Settles O55: each access of a buffer has the one check, on its index. -/
theorem hostBufferAccesses : Obligations.HostBufferAccesses := by
  intro s rest a b
  refine ⟨fun hq => ?_, fun hq => ?_, fun hq => ?_, fun hq => ?_⟩ <;> rw [step_of_hostQueue hq, hostAccess]
  · split_ifs with ha
    · exact ⟨_, if_pos ha, fun c => s.inBuf.read_write a c b⟩
    · exact if_neg ha
  · split_ifs with ha
    · exact hostReadIn_of_written (s := { s with hostQueue := rest }) ha
    · exact if_neg ha
  · split_ifs with ha
    · exact hostReadOut_of_written (s := { s with hostQueue := rest }) ha
    · exact if_neg ha
  · split_ifs with ha
    · exact if_pos ha
    · exact if_neg ha

/-- Bits that are 0 outside 3:0 read as they are (10_state.md R24, R25). -/
theorem and_ctrlMask_of_lt {w : Half} (h : w.toNat < 16) : w &&& ctrlMask = w := by
  rw [ctrl_low, Nat.mod_eq_of_lt h, BitVec.ofNat_toNat, BitVec.setWidth_eq]

/-- Settles O58: the invariant says that every byte of the output is written, and that no reserved bit is set. -/
theorem observationHoldsTheOutput : Obligations.ObservationHoldsTheOutput := by
  rintro s ⟨-, hstatus, hctrl, -, -, -, -, -, -, hwritten⟩
  cases hout : s.outBuf.readRange 0 s.outLen.toNat with
  | none =>
    obtain ⟨a, ha, hnone⟩ := (Memory.readRange_eq_none _ _ _).1 hout
    have hsome := hwritten a ha
    rw [← Nat.zero_add a, hnone] at hsome
    cases hsome
  | some bs =>
    obtain ⟨hlen, hread⟩ := (Memory.readRange_eq_some _ _ _ _).1 hout
    refine ⟨bs, hout, hlen, fun a ha => ?_, and_ctrlMask_of_lt (by omega), and_ctrlMask_of_lt hctrl, rfl, rfl, rfl,
      rfl, rfl, rfl⟩
    rw [← hread a (hlen ▸ ha), Nat.zero_add]

end Sys2Proof.Machine
end

section
/-! SUPPORT. Command lines and the reset event (spec 30_encoding.md R79, R80, 45_config.md R193, 70_reset_and_hazards.md
R230 to R232): the codes of the error kinds, CFG.FIXW, the pseudo-instructions, the empty input, and their
obligations. -/

namespace Sys2Proof.Machine

/-- Settles O9: the table of R200, and `State.raise` is the state with the code of the kind. -/
theorem errorCodesAreOneToNine : Obligations.ErrorCodesAreOneToNine :=
  ⟨by decide, fun e s => ⟨s.errCode_raise e, s.withErr_code e⟩⟩

/-- The IW codes of the legal widths (45_config.md R193). -/
theorem codeOfWidth_of_mem {n code : Nat} (h : (n, code) ∈ [(1, 0), (2, 1), (4, 2), (8, 3)]) :
    codeOfWidth n = some code ∧ code < 4 ∧ widthOfCode code = n := by
  simp only [List.mem_cons, Prod.mk.injEq, List.not_mem_nil, or_false] at h
  rcases h with ⟨rfl, rfl⟩ | ⟨rfl, rfl⟩ | ⟨rfl, rfl⟩ | ⟨rfl, rfl⟩ <;> decide

theorem codeOfWidth_of_not_mem {n : Nat} (h : n ∉ [1, 2, 4, 8]) : codeOfWidth n = none := by
  simp only [List.mem_cons, List.not_mem_nil, or_false, not_or] at h
  obtain ⟨h1, h2, h4, h8⟩ := h
  rw [codeOfWidth, if_neg h1, if_neg h2, if_neg h4, if_neg h8]

/-- CFG.FIXW of a legal width clears bit 1 of CTRL and writes the width's code to bits 3:2 (R193). -/
theorem exec_cfgFixw_of_code {n code : Nat} (h : codeOfWidth n = some code) (hcode : code < 4) (s : State) :
    exec (.cfgFixw n) s =
      .next { s with ctrl := BitVec.ofNat 32 (s.ctrl.toNat % 2 + 4 * code), status := 0 } := by
  have hword : s.ctrlWord.toNat % 2 = s.ctrl.toNat % 2 := by rw [s.ctrlWord_toNat]; omega
  have hctrl : ((s.writeMode 0).writeIW code).ctrl = BitVec.ofNat 32 (s.ctrl.toNat % 2 + 4 * code) := by
    rw [← hword]
    simp only [State.writeIW, State.writeMode, State.writeCtrl_ctrl, State.ctrlWord_writeCtrl]
    exact ctrl_cases (P := fun w => ∀ c < 4, putField (putField w 1 1 0 &&& ctrlMask) 2 2 c &&& ctrlMask =
      BitVec.ofNat 32 (w.toNat % 2 + 4 * c)) (by decide) s.ctrl code hcode
  rw [exec_cfgFixw, fixedWidthCode, h, ← hctrl]
  rfl

/-- Bit 1 of CTRL clear and a width code in bits 3:2: Fixed mode of that width (10_state.md R25). -/
theorem State.cfg_setFixed (s : State) {code : Nat} (hcode : code < 4) :
    { s with ctrl := BitVec.ofNat 32 (s.ctrl.toNat % 2 + 4 * code), status := 0 : State }.cfg =
      { s.cfg with mode := .fixed, intWidth := widthOfCode code } := by
  have hnum : (BitVec.ofNat 32 (s.ctrl.toNat % 2 + 4 * code)).toNat = s.ctrl.toNat % 2 + 4 * code := by
    rw [BitVec.toNat_ofNat]
    omega
  have hbo : (s.ctrl.toNat % 2 + 4 * code) % 2 = s.ctrl.toNat % 2 := by omega
  have hmode : (s.ctrl.toNat % 2 + 4 * code) / 2 % 2 = 0 := by omega
  have hiw : (s.ctrl.toNat % 2 + 4 * code) / 4 % 4 = code := by omega
  rw [State.cfg_eq, State.cfg_eq, hnum, hbo, hmode, hiw]
  rfl

/-- Settles O21: the four legal widths have a code, every other number has none. -/
theorem cfgFixwSelectsFixedOrRaises : Obligations.CfgFixwSelectsFixedOrRaises := by
  refine ⟨fun n hn => ?_, fun s n code hmem => ?_, fun s n hn => ?_⟩
  · rw [encode_toNat, immediateOf, BitVec.toNat_ofNat, Nat.mod_eq_of_lt hn]
    rfl
  · obtain ⟨hcode, hlt, hwidth⟩ := codeOfWidth_of_mem hmem
    exact ⟨exec_cfgFixw_of_code hcode hlt s, hwidth ▸ s.cfg_setFixed hlt⟩
  · rw [exec_cfgFixw, fixedWidthCode, codeOfWidth_of_not_mem hn]
    exact s.conclude_error _ _

/-- The host's write of a well-formed instruction's word runs the instruction (30_encoding.md R79). -/
theorem step_of_commandAccess {s : State} {i : Instr} {rest : List HostAccess} (hwf : i.wellFormed = true)
    (hq : s.hostQueue = commandAccess i :: rest) :
    step s = exec i { s with hostQueue := rest, cmd := encode i } := by
  have hword : ((encode i).zeroExtend 64).extractLsb' 0 32 = encode i := by
    simpa [BitVec.toNat_eq] using (encode i).isLt
  have hrun := stepRunsTheDecodedCommand s _ rest i hq (by rw [hword]; exact decodeOfEncodeIsTheInstruction i hwf) hwf
  rwa [hword] at hrun

theorem exec_cfgLimit (s : State) : exec .cfgLimit s = .next { s with limit := s.val, status := 0 } := rfl

/-- The configuration that CFG.STD loads (45_config.md R191). -/
theorem State.cfg_default (s : State) : { s with ctrl := 0x0000000C, limit := 65536, status := 0 : State }.cfg =
    { byteOrder := .littleEndian, mode := .fixed, intWidth := 8, sizeLimit := 65536 } := by
  obtain ⟨-, hstd, -⟩ := cfgStdLoadsTheDefault
  exact (hstd s).2

/-- Settles O57: each pseudo-instruction is its command lines, and each line runs its command on the state the line
before it left. -/
theorem pseudoInstructionsExpand : Obligations.PseudoInstructionsExpand := by
  refine ⟨fun s n => ⟨rfl, rfl⟩, fun s => ⟨rfl, rfl⟩, fun s n hn hq => ?_, fun s hq => ?_, fun s n hq => ?_,
    fun s hq => ?_⟩
  · obtain ⟨code, hmem⟩ : ∃ code, (n, code) ∈ [(1, 0), (2, 1), (4, 2), (8, 3)] := by
      simp only [List.mem_cons, List.not_mem_nil, or_false] at hn
      rcases hn with rfl | rfl | rfl | rfl <;> simp
    obtain ⟨hcode, hlt, hwidth⟩ := codeOfWidth_of_mem hmem
    have hwf : (Instr.cfgFixw n).wellFormed = true := by
      have : n ≤ 2 ^ 3 := hwidth ▸ Nat.pow_le_pow_right (by decide) (by omega)
      exact decide_eq_true (by omega)
    refine ⟨_, _, (step_of_commandAccess rfl hq).trans (exec_cfgStd _),
      (step_of_commandAccess hwf rfl).trans (exec_cfgFixw_of_code hcode hlt _), rfl, ?_⟩
    refine (State.cfg_setFixed _ hlt).trans ?_
    rw [hwidth]
    exact congrArg (fun c : Cfg => { c with mode := .fixed, intWidth := n }) s.cfg_default
  · refine ⟨_, _, (step_of_commandAccess rfl hq).trans (exec_cfgStd _),
      (step_of_commandAccess rfl rfl).trans (exec_cfgVar _), rfl, ?_⟩
    refine (State.cfg_setMode _).trans ?_
    exact congrArg (fun c : Cfg => { c with mode := .variableLen }) s.cfg_default
  · have hval : wordOfInt n = BitVec.ofNat 64 n := BitVec.ofInt_natCast ..
    refine ⟨_, _, step_of_writeReg (r := .val) hq, (step_of_commandAccess rfl rfl).trans (exec_cfgLimit _),
      rfl, hval, ?_⟩
    exact congrArg (fun v : Word => { s.cfg with sizeLimit := v.toNat }) hval
  · exact ⟨_, (step_of_commandAccess rfl hq).trans (exec_cfgBe _), rfl, State.cfg_setBO _⟩

theorem lpDecode_nil (cfg : Cfg) : lpDecode [] cfg = .error .insufficientData := by
  rw [lpDecode]
  cases cfg.mode <;> rfl

/-- A command that decodes from an empty input raises InsufficientData. -/
theorem exec_of_empty_input {s : State} (h : s.InputIs []) :
    ∀ i ∈ [Instr.lebDec, .lpDec, .blobDes, .fxDecs, .fxDecu, .desI32, .desU32, .desI64],
      exec i s = .next (s.withErr 2) := by
  intro i hi
  have hraise {α : Type} {r : Except ErrKind α} (w : α → State → State) (hr : r = .error .insufficientData) :
      s.conclude r w = .next (s.withErr 2) := by rw [hr]; exact s.conclude_error _ _
  cases i with
  | lebDec | blobDes | desI32 | desU32 | desI64 => exact (State.withInput_of_inputIs h _).trans (hraise _ rfl)
  | lpDec => exact (State.withInput_of_inputIs h _).trans (hraise _ (lpDecode_nil _))
  | fxDecs | fxDecu => exact (State.withInput_of_inputIs h _).trans (hraise _ (if_pos s.intWidth_pos))
  | _ => simp at hi

/-- Settles O51: the reset event leaves `State.afterReset`, in which IN is empty and the mode is Fixed. -/
theorem resetEventRestoresTheBlock : Obligations.ResetEventRestoresTheBlock := by
  intro s rest hq
  let t := State.afterReset { s with hostQueue := rest }
  have hin : t.InputIs [] := ⟨rfl, nofun⟩
  have hout : lpEncode 0 t.cfg ++ [] = [0, 0, 0, 0, 0, 0, 0, 0] := by
    rw [show t.cfg = _ from t.cfg_default]
    rfl
  refine ⟨t, step_of_hostQueue hq, rfl, fun a => ⟨rfl, rfl⟩, exec_of_empty_input hin, ?_⟩
  obtain ⟨u, hexec, -, houtput⟩ := (t.conclude_blobSerialize []).2 (Nat.zero_le _)
  exact ⟨u, (exec_blobSer_of_inputIs hin).trans hexec, hout ▸ houtput⟩

end Sys2Proof.Machine
end

section
/-! SUPPORT. Varints on the block (spec 43_varint.md R140 to R145, R148, R151): the round trip of zigzag, the fewest
groups of LEB128, the first varint of an input, and the obligations about the ZZ and LEB commands. -/

namespace Sys2Proof.Machine

theorem wordOfNat_toNat_of_lt {n : Nat} (h : n < 2 ^ 64) : (wordOfNat n).toNat = n := Nat.mod_eq_of_lt h

/-- The register that holds a number is that number's word (00_scope.md R7). -/
theorem wordOfNat_toNat (v : Word) : wordOfNat v.toNat = v := by simp [wordOfNat]

/-- ZZ.ENC64 writes the zigzag number of VAL (43_varint.md R147). -/
theorem exec_zzEnc64 (s : State) :
    exec .zzEnc64 s = .next { s with res := wordOfNat (zz s.val.toInt), status := 0 } := rfl

/-- ZZ.DEC64 writes the inverse zigzag of VAL (R150). -/
theorem exec_zzDec64 (s : State) :
    exec .zzDec64 s = .next { s with res := wordOfInt (unzz s.val.toNat), status := 0 } := rfl

/-- The inverse zigzag of a zigzag number that a 64-bit register holds (R140, R141). -/
theorem unzz_wordOfNat_zz {v : Int} (h : zz v < 2 ^ 64) : unzz (wordOfNat (zz v)).toNat = v := by
  rw [wordOfNat_toNat_of_lt h, unzz_zz]

theorem int32_bounds (x : Half) : -2 ^ 31 ≤ x.toInt ∧ x.toInt ≤ 2 ^ 31 - 1 := by
  have hle := x.le_toInt
  have hlt := x.toInt_lt
  norm_num at hle hlt ⊢
  omega

/-- Settles O28: the zigzag numbers of a word and of its low half fit in RES, and `unzz` undoes `zz`. -/
theorem zigzagRoundTripsOnTheBlock : Obligations.ZigzagRoundTripsOnTheBlock := by
  refine ⟨fun s t s' h hval => ?_, fun s t s' h hval => ?_⟩
  · cases (exec_zzEnc64 s).symm.trans h
    have hback : unzz s'.val.toNat = s.val.toInt := hval ▸ unzz_wordOfNat_zz (zz_toInt_lt s.val)
    rw [exec_zzDec64, hback, wordOfInt, BitVec.ofInt_toInt]
  · cases (exec_zzEnc32 s).symm.trans h
    have hlt : zz s.valLow.toInt < 2 ^ 64 := (zz_toInt_lt s.valLow).trans (by decide)
    have hback : unzz s'.val.toNat = s.valLow.toInt := hval ▸ unzz_wordOfNat_zz hlt
    rw [exec_zzDec32, hback, checkInt32_of_mem (int32_bounds _)]
    rfl

/-- An encoding is no longer than any number of groups that holds the value (R142). -/
theorem leb128Encode_length_le {u k : Nat} (hu : u < 2 ^ 64) (hk : 1 ≤ k) (h : u < 128 ^ k) :
    (leb128Encode u).length ≤ k := by
  obtain ⟨-, -, -, hone | hge⟩ := lebEncodeLoop_length 9 u (leb128Encode_bound u hu)
  · exact hone.trans_le hk
  · have := (Nat.pow_lt_pow_iff_right (by decide : 1 < 128)).1 (hge.trans_lt h)
    rw [leb128Encode]
    omega

/-- A value of at most `n + 1` groups takes them all exactly when the last one counts (R142). -/
theorem leb128Encode_length_eq_iff {u n : Nat} (hu : u < 2 ^ 64) (h : u < 128 ^ (n + 1)) :
    (leb128Encode u).length = n + 1 ↔ n = 0 ∨ 128 ^ n ≤ u := by
  obtain ⟨hpos, -, hlt, hmin⟩ := lebEncodeLoop_length 9 u (leb128Encode_bound u hu)
  have hle := leb128Encode_length_le hu (Nat.succ_pos n) h
  rw [← leb128Encode] at hpos hlt hmin
  constructor
  · intro hlen
    rw [hlen] at hmin
    exact hmin.imp_left Nat.succ.inj
  · rintro (rfl | hge)
    · omega
    · have := (Nat.pow_lt_pow_iff_right (by decide : 1 < 128)).1 (hge.trans_lt hlt)
      omega

/-- LEB.ENC writes `leb128_encode` of VAL (R148). -/
theorem exec_lebEnc (s : State) : exec .lebEnc s = (s.memWrite (leb128Encode s.val.toNat)).complete := rfl

/-- Settles O29: the output is `leb128_encode` of VAL, whose bytes are the base-128 digits of VAL. -/
theorem lebEncEmitsTheFewestGroups : Obligations.LebEncEmitsTheFewestGroups := by
  intro s
  have hval : s.val.toNat < 2 ^ 64 := s.val.isLt
  obtain ⟨hpos, -, hlt, -⟩ := lebEncodeLoop_length 9 _ (leb128Encode_bound _ hval)
  obtain ⟨t, hexec, honly, hout⟩ := s.complete_memWrite (leb128Encode s.val.toNat)
  have hpow (k : Nat) : 2 ^ (7 * k) = 128 ^ k := Nat.pow_mul 2 7 k
  simp only [hpow]
  exact ⟨t, _, (exec_lebEnc s).trans hexec, honly, hout, hpos, hlt, fun k hk => leb128Encode_length_le hval hk,
    fun i hi => lebEncodeLoop_byte 9 _ i hi⟩

/-- LEB.DEC on its input (R151). -/
theorem exec_lebDec_of_inputIs {s : State} {bs : List Byte} (h : s.InputIs bs) :
    exec .lebDec s =
      s.conclude (leb128Decode s.params.lebNoncanon bs) fun r t => (t.writeRes (wordOfNat r.1)).writeCnt r.2 :=
  State.withInput_of_inputIs h _

/-- The number in the 7-bit groups 0 to n of a sequence (R143). -/
def groupSum (bs : List Byte) (n : Nat) : Nat := digitSum 128 (fun j => byteAt bs j % 128) (n + 1)

/-- The form of the first varint is minimal exactly when it has one byte or its last byte is not 0 (R143). -/
theorem length_eq_groupSum_iff {bs : List Byte} {n : Nat} (hlast : byteAt bs n < 128) (hu : groupSum bs n < 2 ^ 64) :
    (leb128Encode (groupSum bs n)).length = n + 1 ↔ n = 0 ∨ byteAt bs n ≠ 0 := by
  have hdigit (j : Nat) : byteAt bs j % 128 < 128 := Nat.mod_lt _ (by decide)
  have hlow := digitSum_lt_pow n hdigit
  have hsplit : groupSum bs n = digitSum 128 (fun j => byteAt bs j % 128) n + byteAt bs n * 128 ^ n := by
    rw [groupSum, digitSum, Nat.mod_eq_of_lt hlast]
  rw [leb128Encode_length_eq_iff hu (digitSum_lt_pow (n + 1) hdigit), hsplit]
  refine or_congr_right ⟨fun hge hzero => ?_, fun hne => ?_⟩
  · rw [hzero] at hge
    omega
  · exact (Nat.le_mul_of_pos_left _ (Nat.pos_of_ne_zero hne)).trans (Nat.le_add_left _ _)

/-- `leb128_decode` of an input with a last group (R143). -/
theorem leb128Decode_of_terminated (policy : NoncanonPolicy) {bs : List Byte} {n : Nat} (hn : n < bs.length)
    (hpre : ∀ j < n, 128 ≤ byteAt bs j) (hlast : byteAt bs n < 128) :
    leb128Decode policy bs =
      if 2 ^ 64 ≤ groupSum bs n then .error .outOfRange
      else if policy = .reject ∧ n ≠ 0 ∧ byteAt bs n = 0 then .error .outOfRange
      else .ok (groupSum bs n, n + 1) := by
  have hloop : lebDecodeLoop bs 0 0 = .ok (groupSum bs n, n + 1) := by
    rw [lebDecodeLoop_eq bs n 0 0 hn hpre hlast]
    simp [groupSum]
  rw [leb128Decode, hloop]
  dsimp only
  by_cases hu : 2 ^ 64 ≤ groupSum bs n
  · rw [if_pos hu, if_pos hu]
  · have hminimal : (n + 1 ≠ (leb128Encode (groupSum bs n)).length) ↔ n ≠ 0 ∧ byteAt bs n = 0 := by
      rw [ne_comm, ne_eq, length_eq_groupSum_iff hlast (Nat.lt_of_not_le hu), not_or, not_not]
    simp only [hminimal]

/-- Settles O30: LEB.DEC concludes with `leb128_decode` of its input, whose branches are those of the statement. -/
theorem lebDecReadsOneVarint : Obligations.LebDecReadsOneVarint := by
  intro s bs n hin hn hpre hlast
  rw [exec_lebDec_of_inputIs hin, leb128Decode_of_terminated _ hn hpre hlast]
  show _ = Host.Outcome.next (if 2 ^ 64 ≤ groupSum bs n then _ else _)
  split_ifs <;> rfl

/-- Settles O31: without a last group the loop of `leb128_decode` runs out of bytes. -/
theorem lebDecUnterminatedIsInsufficientData : Obligations.LebDecUnterminatedIsInsufficientData := by
  intro s bs hin hall
  rw [exec_lebDec_of_inputIs hin, leb128Decode, lebDecodeLoop_unterminated bs 0 0 hall]
  exact s.conclude_error _ _

/-- Settles O32: `leb128_decode` undoes `leb128_encode`, whatever bytes follow. -/
theorem lebRoundTripsOnTheBlock : Obligations.LebRoundTripsOnTheBlock := by
  intro s
  obtain ⟨t, hexec, -, hout⟩ := s.complete_memWrite (leb128Encode s.val.toNat)
  refine ⟨t, _, (exec_lebEnc s).trans hexec, hout, fun s' extra hin => ?_⟩
  rw [exec_lebDec_of_inputIs hin, leb128Decode_encode _ _ _ s.val.isLt, State.conclude, wordOfNat_toNat]
  rfl

end Sys2Proof.Machine
end

section
/-! SUPPORT. Round trips of prefixes, blobs and fixed-width bytes (spec 41_length_prefix.md R111, 42_byte_order.md
R122): the decoders on what the encoders write, and the obligations about them. -/

namespace Sys2Proof.Machine

/-- A marker's field that is there in full is the length that was written (41_length_prefix.md R101). -/
theorem lpDecodeVariable_marker {m : Byte} {k len : Nat} (hm : ¬ m.toNat ≤ 250) (hff : m ≠ 0xFF)
    (hk : markerWidth m.toNat = k) (hlen : len < 256 ^ k) (hword : len < 2 ^ 64) (extra : List Byte) :
    lpDecodeVariable (m :: (leBytes len k ++ extra)) = .ok (len, 1 + k) := by
  have htake : (leBytes len k ++ extra).take k = leBytes len k := List.take_left' (leBytes_length len k)
  have hvalue : leValue (leBytes len k) = len := by rw [leValue_leBytes, Nat.mod_eq_of_lt hlen]
  have hthere : ¬ (leBytes len k ++ extra).length < k := by rw [List.length_append, leBytes_length]; omega
  simp only [lpDecodeVariable, if_neg hm, if_neg hff, hk, if_neg hthere, htake, hvalue,
    if_neg (Nat.not_le_of_gt hword)]

theorem lpDecodeVariable_encode {len : Nat} (hlen : len < 2 ^ 64) (extra : List Byte) :
    lpDecodeVariable (lpEncodeVariable len ++ extra) = .ok (len, (lpEncodeVariable len).length) := by
  rw [lpEncodeVariable]
  split_ifs with h1 h2 h4
  · have hbyte : (BitVec.ofNat 8 len : Byte).toNat = len := Nat.mod_eq_of_lt (by omega)
    simp only [List.singleton_append, lpDecodeVariable, hbyte, if_pos (show len ≤ 250 by omega), List.length_singleton]
  · exact lpDecodeVariable_marker (k := 2) (by decide) (by decide) rfl h2 hlen extra
  · exact lpDecodeVariable_marker (k := 4) (by decide) (by decide) rfl h4 hlen extra
  · exact lpDecodeVariable_marker (k := 8) (by decide) (by decide) rfl hlen hlen extra

theorem lpDecodeFixed_emit (v : Word) (bo : ByteOrder) (extra : List Byte) :
    lpDecodeFixed (emitFixed v 8 bo ++ extra) bo = .ok (v.toNat, 8) := by
  have hthere : ¬ (emitFixed v 8 bo ++ extra).length < 8 := by rw [List.length_append, emitFixed_length]; omega
  have hlt : v.toNat < 256 ^ 8 := v.isLt
  rw [lpDecodeFixed, if_neg hthere, List.take_left' (emitFixed_length ..), orderedValue_emitFixed, Nat.mod_eq_of_lt hlt]

/-- In Fixed mode the prefix is the length as eight bytes (R100). -/
theorem lpEncode_of_fixed {cfg : Cfg} (h : cfg.mode = .fixed) {len : Nat} (hlen : len < 2 ^ 64) :
    lpEncode len cfg = emitFixed (wordOfNat len) 8 cfg.byteOrder := by
  cases hbo : cfg.byteOrder with
  | littleEndian => simp only [lpEncode, h, hbo, emitFixed, wordOfNat_toNat_of_lt hlen]
  | bigEndian => simp only [lpEncode, h, hbo, emitFixed, wordOfNat_toNat_of_lt hlen]

/-- Settles O36: `lp_decode` reads the mode's prefix back, in Fixed mode as the number of its eight bytes, in Variable
mode by its marker. -/
theorem prefixRoundTrips : Obligations.PrefixRoundTrips := by
  intro len cfg extra hlen
  rw [lpDecode]
  cases hmode : cfg.mode with
  | fixed =>
    rw [lpEncode_of_fixed hmode hlen, emitFixed_length]
    exact (lpDecodeFixed_emit _ _ _).trans (by rw [wordOfNat_toNat_of_lt hlen])
  | variableLen =>
    simp only [lpEncode, hmode]
    exact lpDecodeVariable_encode hlen extra

/-- `blob_deserialize` undoes `blob_serialize` within LIMIT and HOST_SIZE_MAX (R111). -/
theorem blobDeserialize_frame {d : List Byte} {cfg : Cfg} {hostSizeMax : Nat} (hword : d.length < 2 ^ 64)
    (hlimit : d.length ≤ cfg.sizeLimit) (hhost : d.length ≤ hostSizeMax) :
    blobDeserialize (lpEncode d.length cfg ++ d) cfg hostSizeMax = .ok (d, d.length) := by
  rw [blobDeserialize_of_lpDecode _ (prefixRoundTrips d.length cfg d hword), blobUnframe,
    if_neg (Nat.not_lt.2 hlimit), if_neg (Nat.not_lt.2 hhost), List.length_append, if_neg (Nat.lt_irrefl _),
    if_neg (not_not_intro rfl), List.drop_left, List.take_length]

theorem State.InputIs.inLen_eq {s : State} {bs : List Byte} (h : s.InputIs bs) :
    s.inLen = BitVec.ofNat 64 bs.length := by
  rw [h.1, BitVec.ofNat_toNat, BitVec.setWidth_eq]

/-- Settles O39: the record that BLOB.SER writes is the frame that `blob_deserialize` undoes. -/
theorem blobRoundTripsOnTheBlock : Obligations.BlobRoundTripsOnTheBlock := by
  intro s d hin hlimit hhost
  have hword : d.length < 2 ^ 64 := hin.1 ▸ s.inLen.isLt
  obtain ⟨t, hexec, honly, hout⟩ := (s.conclude_blobSerialize d).2 hlimit
  refine ⟨t, _, (exec_blobSer_of_inputIs hin).trans hexec, by rw [honly], hout, ?_, fun s' hc hl hp hin' => ?_⟩
  · rw [List.length_append, Nat.add_comm]
  · rw [exec_blobDes_of_inputIs hin', State.cfg_congr hc hl, hp, blobDeserialize_frame hword hlimit hhost]
    exact ⟨_, rfl, rfl, State.memWrite_outputIs s' d, rfl, hin'.inLen_eq⟩

/-- The balanced residue leaves exactly its own range as it is (00_scope.md R8). -/
theorem bmod_eq_self_iff {w : Int} {m h : Nat} (hm : m = 2 * h) (hpos : 0 < h) :
    Int.bmod w m = w ↔ -(h : Int) ≤ w ∧ w < h := by
  subst hm
  rw [Int.bmod_eq_iff (by omega), Int.sub_self]
  simp only [Int.dvd_zero, and_true]
  omega

theorem bmod_bounds (w : Int) {m h : Nat} (hm : m = 2 * h) (hpos : 0 < h) :
    -(h : Int) ≤ Int.bmod w m ∧ Int.bmod w m < h :=
  (bmod_eq_self_iff hm hpos).1 Int.bmod_bmod

/-- Two integers of 64 signed bits with one word are equal (R8). -/
theorem ofInt_inj {a b : Int} (ha : -2 ^ 63 ≤ a ∧ a < 2 ^ 63) (hb : -2 ^ 63 ≤ b ∧ b < 2 ^ 63) :
    BitVec.ofInt 64 a = BitVec.ofInt 64 b ↔ a = b := by
  rw [← BitVec.toInt_inj, BitVec.toInt_ofInt_eq_self (by decide) ha.1 ha.2,
    BitVec.toInt_ofInt_eq_self (by decide) hb.1 hb.2]

theorem pow256_eq_two_mul {n : Nat} (h : 0 < n) : 256 ^ n = 2 * 2 ^ (8 * n - 1) := by
  rw [← Nat.pow_succ', show (8 * n - 1).succ = 8 * n by omega, Nat.pow_mul]

/-- A word and its signed reading have one residue for each byte count (R8). -/
theorem bmod_toNat_eq_bmod_toInt (v : Word) {n : Nat} (h : n ≤ 8) :
    Int.bmod v.toNat (256 ^ n) = Int.bmod v.toInt (256 ^ n) := by
  have hdvd : 256 ^ n ∣ 2 ^ 64 := Nat.pow_dvd_pow 256 h
  rw [BitVec.toInt_eq_toNat_bmod, Int.bmod_bmod_of_dvd hdvd]

/-- `reconstruct` of emitted bytes is the low bytes of the word, as two's complement for a signed target
(42_byte_order.md R122). -/
theorem reconstruct_emitFixed (v : Word) {n : Nat} (h0 : 0 < n) (h8 : n ≤ 8) (bo : ByteOrder) (signed : Bool) :
    reconstruct (emitFixed v n bo) bo signed =
      BitVec.ofInt 64 (if signed then Int.bmod v.toNat (256 ^ n) else (v.toNat % 256 ^ n : Nat)) := by
  have hlen := emitFixed_length v n bo
  rw [reconstruct_eq _ _ _ (List.ne_nil_of_length_pos (by omega)) (by omega), hlen, orderedValue_emitFixed,
    Int.natCast_mod, Int.emod_bmod]

/-- The signed reading of n bytes gives a word back exactly when it fits them (R122). -/
theorem ofInt_bmod_eq_iff (v : Word) {n : Nat} (h0 : 0 < n) (h8 : n ≤ 8) :
    BitVec.ofInt 64 (Int.bmod v.toNat (256 ^ n)) = v ↔
      -2 ^ (8 * n - 1) ≤ v.toInt ∧ v.toInt ≤ 2 ^ (8 * n - 1) - 1 := by
  have hhalf := pow256_eq_two_mul h0
  have hpos : 0 < 2 ^ (8 * n - 1) := Nat.two_pow_pos _
  have hle : 2 ^ (8 * n - 1) ≤ 2 ^ 63 := Nat.pow_le_pow_right (by decide) (by omega)
  have hbounds := bmod_bounds v.toInt hhalf hpos
  have hrange := bmod_eq_self_iff (w := v.toInt) hhalf hpos
  have hv : -2 ^ 63 ≤ v.toInt ∧ v.toInt < 2 ^ 63 := ⟨v.le_toInt, v.toInt_lt⟩
  have hinj := ofInt_inj (a := Int.bmod v.toInt (256 ^ n)) (by omega) hv
  rw [BitVec.ofInt_toInt] at hinj
  rw [bmod_toNat_eq_bmod_toInt v h8, hinj, hrange, Int.le_sub_one_iff]
  push_cast
  rfl

/-- Settles O43: reconstructed bytes are the residue of the word, which is the word exactly in the residue's range. -/
theorem fixedBytesRoundTrip : Obligations.FixedBytesRoundTrip := by
  intro v n bo hn
  obtain ⟨h0, h8⟩ : 0 < n ∧ n ≤ 8 := by
    simp only [List.mem_cons, List.not_mem_nil, or_false] at hn
    omega
  have hsigned := reconstruct_emitFixed v h0 h8 bo true
  have hunsigned : reconstruct (emitFixed v n bo) bo false = BitVec.ofNat 64 (v.toNat % 256 ^ n) :=
    (reconstruct_emitFixed v h0 h8 bo false).trans (BitVec.ofInt_natCast ..)
  refine ⟨rfl, hsigned, hsigned ▸ ofInt_bmod_eq_iff v h0 h8, hunsigned, ?_⟩
  have hlt : v.toNat % 256 ^ n < 2 ^ 64 := (Nat.mod_le _ _).trans_lt v.isLt
  rw [hunsigned, BitVec.toNat_eq, BitVec.toNat_ofNat, Nat.mod_eq_of_lt hlt]
  exact Nat.mod_eq_iff_lt (Nat.pow_pos (by decide)).ne'

end Sys2Proof.Machine
end

section
/-! SUPPORT. Integer records read and round-tripped (spec 44_integer.md R171 to R173, R177 to R180): narrowing over the
integers, the value of a payload in either mode, that a DES command undoes its SER command, and their obligations. -/

namespace Sys2Proof.Machine

/-- The DES commands with the width and the sign of their target (44_integer.md R177 to R179). -/
def desCommands : List (Instr × Nat × Bool) := [(.desI32, 32, true), (.desU32, 32, false), (.desI64, 64, true)]

theorem exec_of_mem_desCommands {x : Instr × Nat × Bool} (hx : x ∈ desCommands) (s : State) :
    exec x.1 s = s.deserialize x.2.1 x.2.2 := by
  simp only [desCommands, List.mem_cons, List.not_mem_nil, or_false] at hx
  rcases hx with rfl | rfl | rfl <;> rfl

/-- A DES command on a record concludes with the value of its payload (R173). -/
theorem State.deserialize_of_record {s : State} {wire p : List Byte} {len : Nat} (hin : s.InputIs wire)
    (hblob : blobDeserialize wire s.cfg s.params.hostSizeMax = .ok (p, len)) (wd : Nat) (signed : Bool) :
    s.deserialize wd signed =
      s.conclude (intValue p wd signed s.cfg s.params) fun v t => { t.writeRes v with cnt := s.inLen } := by
  simp only [State.deserialize, State.writeCnt_toNat, State.withInput_of_inputIs hin, recordValue, hblob]

/-- Settles O45: the checks of the frame come first. -/
theorem desCommandsPropagateBlobErrors : Obligations.DesCommandsPropagateBlobErrors := by
  intro i hi s wire e hin hblob
  obtain ⟨wd, signed, hdes⟩ := exec_des_eq_deserialize hi
  rw [hdes]
  exact State.deserialize_of_error hin (by rw [recordValue, hblob])

/-- The integers that a 64-bit word holds, of a signed or an unsigned target (00_scope.md R8). -/
def FitsWord (signed : Bool) (w : Int) : Prop :=
  if signed = true then -2 ^ 63 ≤ w ∧ w < 2 ^ 63 else 0 ≤ w ∧ w < 2 ^ 64

/-- The upper and, for a signed target, lower end of a 32-bit target (R172). -/
abbrev FitsInt32 (signed : Bool) (w : Int) : Prop := if signed = true then -2 ^ 31 ≤ w ∧ w < 2 ^ 31 else w < 2 ^ 32

/-- The residue in the low bytes of an integer, balanced for a signed target (R8). -/
def lowResidue (signed : Bool) (w : Int) (m : Nat) : Int := if signed = true then Int.bmod w m else w % m

/-- The low half of an integer's word is the integer's 32-bit word (R7, R8). -/
theorem extractLsb'_ofInt (w : Int) : (BitVec.ofInt 64 w).extractLsb' 0 32 = BitVec.ofInt 32 w := by
  apply BitVec.eq_of_toNat_eq
  simp only [BitVec.extractLsb'_toNat, BitVec.toNat_ofInt, Nat.shiftRight_zero]
  omega

/-- The low half of an integer's word, extended, is the word of the integer's residue (R172). -/
theorem extended_extractLsb'_ofInt (w : Int) (signed : Bool) :
    extended ((BitVec.ofInt 64 w).extractLsb' 0 32) signed = BitVec.ofInt 64 (lowResidue signed w (2 ^ 32)) := by
  rw [extractLsb'_ofInt, extended, lowResidue]
  cases signed with
  | true => exact congrArg (BitVec.ofInt 64) (BitVec.toInt_ofInt w)
  | false =>
    have hnonneg : 0 ≤ w % (2 ^ 32 : Nat) := Int.emod_nonneg _ (by decide)
    apply BitVec.eq_of_toNat_eq
    simp only [Bool.false_eq_true, if_false, BitVec.zeroExtend, BitVec.toNat_setWidth, BitVec.toNat_ofInt]
    omega

/-- The residue keeps the word of an integer exactly when the integer fits the 32-bit target (R172). -/
theorem ofInt_lowResidue_eq_iff {signed : Bool} {w : Int} (h : FitsWord signed w) :
    BitVec.ofInt 64 (lowResidue signed w (2 ^ 32)) = BitVec.ofInt 64 w ↔ FitsInt32 signed w := by
  cases signed with
  | true =>
    have hself := bmod_eq_self_iff (w := w) (m := 2 ^ 32) (h := 2 ^ 31) (by decide) (by decide)
    have hbounds := bmod_bounds w (m := 2 ^ 32) (h := 2 ^ 31) (by decide) (by decide)
    exact (ofInt_inj (by simp only [lowResidue, if_true]; omega) h).trans hself
  | false =>
    simp only [FitsWord, Bool.false_eq_true, if_false] at h
    simp only [← BitVec.toNat_inj, BitVec.toNat_ofInt, lowResidue, FitsInt32, Bool.false_eq_true, if_false]
    omega

/-- `narrow32` over the integers (R172). -/
theorem narrow32_ofInt (policy : NarrowPolicy) {signed : Bool} {w : Int} (h : FitsWord signed w) :
    narrow32 policy (BitVec.ofInt 64 w) signed =
      if policy = .reject ∧ ¬ FitsInt32 signed w then .error .outOfRange
      else .ok (BitVec.ofInt 64 (lowResidue signed w (2 ^ 32))) := by
  have hne : extended ((BitVec.ofInt 64 w).extractLsb' 0 32) signed ≠ BitVec.ofInt 64 w ↔ ¬ FitsInt32 signed w := by
    rw [extended_extractLsb'_ofInt]
    exact not_congr (ofInt_lowResidue_eq_iff h)
  show (if policy = .reject ∧ extended ((BitVec.ofInt 64 w).extractLsb' 0 32) signed ≠ BitVec.ofInt 64 w then _
    else _) = _
  simp only [hne]
  rw [← extended_extractLsb'_ofInt]
  rfl

/-- The integer in the first n bytes of a payload fits a word (R171). -/
theorem fitsWord_lowResidue {signed : Bool} {w : Int} {n : Nat} (h0 : 0 < n) (h8 : n ≤ 8) :
    FitsWord signed (lowResidue signed w (256 ^ n)) := by
  have hhalf := pow256_eq_two_mul h0
  have hle : 2 ^ (8 * n - 1) ≤ 2 ^ 63 := Nat.pow_le_pow_right (by decide) (by omega)
  have hpos : 0 < 2 ^ (8 * n - 1) := Nat.two_pow_pos _
  cases signed with
  | true =>
    have hbounds := bmod_bounds w hhalf hpos
    simp only [FitsWord, lowResidue, if_true]
    omega
  | false =>
    have hnonneg := Int.emod_nonneg w (b := (256 ^ n : Nat)) (by omega)
    have hlt := Int.emod_lt_of_pos w (b := (256 ^ n : Nat)) (by omega)
    simp only [FitsWord, lowResidue, Bool.false_eq_true, if_false]
    omega

/-- The widths and signs of the DES commands' targets. -/
theorem width_of_mem_desCommands {x : Instr × Nat × Bool} (hx : x ∈ desCommands) : x.2.1 = 32 ∨ x.2.1 = 64 := by
  simp only [desCommands, List.mem_cons, List.not_mem_nil, or_false] at hx
  rcases hx with rfl | rfl | rfl <;> simp

/-- What a Fixed-mode target takes of a reconstructed integer (R171, R172): a 32-bit one its residue. -/
theorem narrowed_ofInt (wd : Nat) (policy : NarrowPolicy) {signed : Bool} {w : Int} (h : FitsWord signed w)
    (hwd : wd = 32 ∨ wd = 64) :
    (if wd = 64 then .ok (BitVec.ofInt 64 w) else narrow32 policy (BitVec.ofInt 64 w) signed) =
      if policy = .reject ∧ wd = 32 ∧ ¬ FitsInt32 signed w then .error .outOfRange
      else .ok (BitVec.ofInt 64 (if wd = 64 then w else lowResidue signed w (2 ^ 32))) := by
  rcases hwd with rfl | rfl
  · simp [narrow32_ofInt policy h]
  · simp

/-- The value of a payload in Fixed mode, over the number in its first bytes (R171). -/
theorem intValueFixed_eq {s : State} (p : List Byte) {wd : Nat} (hwd : wd = 32 ∨ wd = 64) (signed : Bool)
    (params : Params) {w : Int}
    (hw : w = if signed = true then Int.bmod (numberAt s.cfg.byteOrder p 0 s.cfg.intWidth) (256 ^ s.cfg.intWidth)
      else numberAt s.cfg.byteOrder p 0 s.cfg.intWidth) :
    intValueFixed p wd signed s.cfg params =
      if p.length < s.cfg.intWidth then .error .insufficientData
      else if s.cfg.intWidth < p.length ∧ params.intExcess = .reject then .error .trailingBytes
      else if params.narrow = .reject ∧ wd = 32 ∧ ¬ FitsInt32 signed w then .error .outOfRange
      else .ok (BitVec.ofInt 64 (if wd = 64 then w else lowResidue signed w (2 ^ 32))) := by
  have hlt := numberAt_lt_pow s.cfg.byteOrder p 0 s.cfg.intWidth
  have hres : w = lowResidue signed (numberAt s.cfg.byteOrder p 0 s.cfg.intWidth) (256 ^ s.cfg.intWidth) := by
    rw [hw, lowResidue, ← Int.natCast_mod, Nat.mod_eq_of_lt hlt]
  have hfits : FitsWord signed w := hres ▸ fitsWord_lowResidue s.intWidth_pos s.intWidth_le_eight
  rw [intValueFixed]
  by_cases hshort : p.length < s.cfg.intWidth
  · rw [if_pos hshort, if_pos hshort]
  · rw [if_neg hshort, if_neg hshort,
      reconstruct_take p _ _ signed s.intWidth_pos s.intWidth_le_eight (Nat.le_of_not_lt hshort), ← hw]
    dsimp only
    rw [narrowed_ofInt wd params.narrow hfits hwd]

/-- Settles O46: a DES command concludes with the value of the payload, whose branches in Fixed mode are those of the
statement. -/
theorem desFixedReadsTheFirstBytes : Obligations.DesFixedReadsTheFirstBytes := by
  intro x hx s wire p len hin hmode hblob n v w fits
  rw [exec_of_mem_desCommands hx, State.deserialize_of_record hin hblob, intValue, hmode]
  dsimp only
  rw [intValueFixed_eq p (width_of_mem_desCommands hx) x.2.2 s.params (w := w) rfl]
  show _ = Host.Outcome.next (if p.length < s.cfg.intWidth then _
    else if s.cfg.intWidth < p.length ∧ s.params.intExcess = .reject then _
    else if s.params.narrow = .reject ∧ x.2.1 = 32 ∧ ¬ FitsInt32 x.2.2 w then _
    else { s with res := BitVec.ofInt 64 (if x.2.1 = 64 then w else lowResidue x.2.2 w (2 ^ 32)), cnt := s.inLen,
                  status := 0 })
  split_ifs <;> rfl

/-- The integer of a varint in Variable mode (R171): the range of a 32-bit target is that of 32-bit varints. -/
theorem intOfVarint_eq {x : Instr × Nat × Bool} (hx : x ∈ desCommands) (u : Nat) :
    intOfVarint u x.2.1 x.2.2 =
      if x.2.1 = 32 ∧ 2 ^ 32 ≤ u then .error .outOfRange
      else .ok (BitVec.ofInt 64 (if x.2.2 = false then u else unzz u)) := by
  have hrange := unzz_mem_int32_iff u
  simp only [desCommands, List.mem_cons, List.not_mem_nil, or_false] at hx
  rcases hx with rfl | rfl | rfl
  · by_cases hu : 2 ^ 32 ≤ u
    · rw [if_pos ⟨rfl, hu⟩, intOfVarint, if_pos rfl, if_pos rfl, checkInt32_of_not_mem (mt hrange.1 (by omega))]
    · rw [if_neg fun h => hu h.2, intOfVarint, if_pos rfl, if_pos rfl, checkInt32_of_mem (hrange.2 (by omega))]
      rfl
  · by_cases hu : 2 ^ 32 ≤ u
    · rw [if_pos ⟨rfl, hu⟩, intOfVarint, if_neg Bool.false_ne_true, if_pos ⟨rfl, by omega⟩]
    · rw [if_neg fun h => hu h.2, intOfVarint, if_neg Bool.false_ne_true, if_neg fun h => hu (by omega)]
      rfl
  · rfl

/-- Settles O47: a DES command concludes with the value of the payload, which in Variable mode is that of its varint. -/
theorem desVariableReadsAVarint : Obligations.DesVariableReadsAVarint := by
  intro x hx s wire p len hin hmode hblob
  rw [exec_of_mem_desCommands hx, State.deserialize_of_record hin hblob, intValue, hmode]
  dsimp only
  rw [intValueVariable]
  refine ⟨fun e hleb => ?_, fun u c hleb => ?_⟩
  · rw [hleb]
    exact s.conclude_error e _
  · rw [hleb]
    dsimp only
    have hunzz : (if u % 2 = 0 then ((u / 2 : Nat) : Int) else -((u / 2 : Nat) : Int) - 1) = unzz u := rfl
    rw [intOfVarint_eq hx, hunzz]
    split_ifs <;> rfl

/-- The integer that a SER command writes (R174 to R176). -/
def serInt {wd : Nat} (y : BitVec wd) (signed : Bool) : Int := if signed = true then y.toInt else y.toNat

/-- What a record keeps of an integer: all of it in Variable mode, its low bytes in Fixed mode (R180). -/
def recordInt (x : Int) (signed : Bool) (cfg : Cfg) : Int :=
  match cfg.mode with
  | .variableLen => x
  | .fixed => lowResidue signed x (256 ^ cfg.intWidth)

/-- The low bytes of the word that Fixed mode emits are those of the integer (R170). -/
theorem reconstruct_extended {wd : Nat} (hwd : wd ≤ 64) (y : BitVec wd) (signed : Bool) {n : Nat} (h0 : 0 < n)
    (h8 : n ≤ 8) (bo : ByteOrder) :
    reconstruct (emitFixed (extended y signed) n bo) bo signed =
      BitVec.ofInt 64 (lowResidue signed (serInt y signed) (256 ^ n)) := by
  rw [reconstruct_emitFixed _ h0 h8]
  cases signed with
  | true =>
    have hint : (extended y true).toInt = y.toInt := BitVec.toInt_signExtend_of_le hwd
    rw [if_pos rfl, bmod_toNat_eq_bmod_toInt _ h8, hint]
    rfl
  | false =>
    have hnat : (extended y false).toNat = y.toNat := BitVec.toNat_setWidth_of_le hwd
    rw [if_neg Bool.false_ne_true, hnat]
    rfl

/-- An integer of 32 bits, and the residue in its low bytes, fit the 32-bit target (R172). -/
theorem fitsInt32_lowResidue (y : Half) (signed : Bool) {n : Nat} (h0 : 0 < n) :
    FitsInt32 signed (lowResidue signed (serInt y signed) (256 ^ n)) := by
  cases signed with
  | true =>
    have hy := int32_bounds y
    have hhalf := pow256_eq_two_mul h0
    have hpos : 0 < 2 ^ (8 * n - 1) := Nat.two_pow_pos _
    have hbounds := bmod_bounds y.toInt hhalf hpos
    have hself := bmod_eq_self_iff (w := y.toInt) hhalf hpos
    simp only [FitsInt32, lowResidue, serInt, if_true]
    by_cases hsmall : 2 ^ (8 * n - 1) ≤ 2 ^ 31
    · omega
    · rw [hself.2 (by omega)]
      omega
  | false =>
    have hy := y.isLt
    have hle := Nat.mod_le y.toNat (256 ^ n)
    simp only [FitsInt32, lowResidue, serInt, Bool.false_eq_true, if_false]
    omega

/-- An integer that fits the 32-bit target is narrowed to itself, under either policy (R172). -/
theorem narrow32_of_fits (policy : NarrowPolicy) {signed : Bool} {w : Int} (h : FitsWord signed w)
    (hfits : FitsInt32 signed w) : narrow32 policy (BitVec.ofInt 64 w) signed = .ok (BitVec.ofInt 64 w) := by
  rw [narrow32_ofInt policy h, if_neg (fun hand => hand.2 hfits), (ofInt_lowResidue_eq_iff h).2 hfits]

/-- `int_value` undoes `int_payload` up to the width of Fixed mode, under every policy (R180). -/
theorem intValue_intPayload (s : State) (params : Params) {b : Nat} (y : BitVec (b + 1)) {signed : Bool} {i : Instr}
    (hx : (i, b + 1, signed) ∈ desCommands) :
    intValue (intPayload y signed s.cfg) (b + 1) signed s.cfg params =
      .ok (BitVec.ofInt 64 (recordInt (serInt y signed) signed s.cfg)) := by
  have hwd : b + 1 = 32 ∨ b + 1 = 64 := width_of_mem_desCommands hx
  have h0 := s.intWidth_pos
  have h8 := s.intWidth_le_eight
  rw [intValue, recordInt]
  cases hmode : s.cfg.mode with
  | fixed =>
    have hlen := emitFixed_length (extended y signed) s.cfg.intWidth s.cfg.byteOrder
    rw [intPayload_of_fixed hmode]
    simp only [intValueFixed, hlen, Nat.lt_irrefl, false_and, if_false, List.take_of_length_le hlen.le,
      reconstruct_extended (show b + 1 ≤ 64 by omega) y signed h0 h8]
    rcases hwd with h32 | h64
    · obtain rfl : b = 31 := by omega
      exact narrow32_of_fits _ (fitsWord_lowResidue h0 h8) (fitsInt32_lowResidue y signed h0)
    · rw [if_pos h64]
  | variableLen =>
    have hdec := leb128Decode_encode params.lebNoncanon (varintNumber y signed) [] (varintNumber_lt (by omega) y signed)
    have hnotBig : ¬ (b + 1 = 32 ∧ 2 ^ 32 ≤ varintNumber y signed) := by
      rintro ⟨h32, hbig⟩
      obtain rfl : b = 31 := by omega
      exact absurd (varintNumber_lt_pow y signed) (Nat.not_lt.2 hbig)
    have hint := intOfVarint_eq hx (varintNumber y signed)
    rw [if_neg hnotBig] at hint
    rw [List.append_nil] at hdec
    rw [intPayload_of_variable hmode]
    simp only [intValueVariable, hdec, Nat.lt_irrefl, false_and, if_false]
    refine hint.trans ?_
    cases signed with
    | true => exact congrArg (fun v => Except.ok (BitVec.ofInt 64 v)) (unzz_zz y.toInt)
    | false => rfl

/-- A SER command that succeeds writes the frame of its payload, which is within LIMIT (R173). -/
theorem State.conclude_intRecord {s t : State} {wd : Nat} {y : BitVec wd} {signed : Bool}
    (h : s.conclude (intRecord y signed s.cfg) State.memWrite = .next t) (hok : t.status = 0) :
    (intPayload y signed s.cfg).length ≤ s.limit.toNat ∧
    OutputIs s t (lpEncode (intPayload y signed s.cfg).length s.cfg ++ intPayload y signed s.cfg) := by
  obtain ⟨w, hrecord, rfl⟩ := State.conclude_succeeded h hok
  obtain ⟨hlimit, rfl⟩ := blobSerialize_ok hrecord
  exact ⟨hlimit, s.memWrite_succeed_outputIs _⟩

/-- A DES command on what the SER command of its type wrote, under the same configuration (R180). -/
theorem integerRecord_roundTrip {s t : State} {b : Nat} (y : BitVec (b + 1)) {signed : Bool} {i j : Instr}
    (hser : exec i s = s.conclude (intRecord y signed s.cfg) State.memWrite) (hdes : (j, b + 1, signed) ∈ desCommands)
    (hhost : 10 ≤ s.params.hostSizeMax) (h : exec i s = .next t) (hok : t.status = 0) :
    ∃ w : List Byte, OutputIs s t w ∧
      ∀ s' : State, s'.ctrl = s.ctrl → s'.limit = s.limit → s'.params = s.params → s'.InputIs w →
        exec j s' = .next { s' with
          res := BitVec.ofInt 64 (recordInt (serInt y signed) signed s.cfg),
          cnt := BitVec.ofNat 64 w.length, status := 0 } := by
  obtain ⟨hlimit, hout⟩ := State.conclude_intRecord (hser.symm.trans h) hok
  refine ⟨_, hout, fun s' hctrl hlim hparams hin => ?_⟩
  have hwd : b + 1 = 32 ∨ b + 1 = 64 := width_of_mem_desCommands hdes
  have hlen : (intPayload y signed s.cfg).length ≤ 10 := s.intPayload_length (by omega) y signed
  have hcfg := State.cfg_congr hctrl hlim
  have hblob := blobDeserialize_frame (cfg := s.cfg) (hlen.trans_lt (by decide)) hlimit (hlen.trans hhost)
  have hread := State.deserialize_of_record hin (by rw [hcfg, hparams]; exact hblob) (b + 1) signed
  rw [exec_of_mem_desCommands hdes, hread, hcfg, intValue_intPayload s _ y hdes, ← hin.inLen_eq]
  rfl

/-- Settles O48: each SER command frames the payload of its integer, and the DES command of its type reads it back. -/
theorem integerRecordsRoundTripOnTheBlock : Obligations.IntegerRecordsRoundTripOnTheBlock := by
  intro s t i j x signed hmem hhost h hok
  simp only [List.mem_cons, Prod.mk.injEq, List.not_mem_nil, or_false] at hmem
  rcases hmem with ⟨rfl, rfl, rfl, rfl⟩ | ⟨rfl, rfl, rfl, rfl⟩ | ⟨rfl, rfl, rfl, rfl⟩
  · exact integerRecord_roundTrip (b := 31) s.valLow (exec_serI32 s) (by decide) hhost h hok
  · exact integerRecord_roundTrip (b := 31) s.valLow (exec_serU32 s) (by decide) hhost h hok
  · exact integerRecord_roundTrip (b := 63) s.val (exec_serI64 s) (by decide) hhost h hok

/-- Each SER command frames the payload of an integer of its own width and sign, read from VAL (R174 to R176). -/
theorem exec_ser_eq_conclude {i : Instr} (hi : i ∈ [Instr.serI32, .serU32, .serI64]) :
    ∃ (b : Nat) (y : State → BitVec (b + 1)) (signed : Bool), b < 64 ∧
      ∀ s, exec i s = s.conclude (intRecord (y s) signed s.cfg) State.memWrite := by
  simp only [List.mem_cons, List.not_mem_nil, or_false] at hi
  rcases hi with rfl | rfl | rfl
  · exact ⟨31, State.valLow, true, by decide, exec_serI32⟩
  · exact ⟨31, State.valLow, false, by decide, exec_serU32⟩
  · exact ⟨63, State.val, true, by decide, exec_serI64⟩

/-- Bit 1 of CTRL set selects Variable mode, whatever the other bits are (10_state.md R25). -/
theorem State.mode_setBit (s : State) : { s with ctrl := s.ctrl ||| 2 : State }.cfg.mode = .variableLen := by
  have hbit : (s.ctrl ||| 2).toNat.testBit 1 = true := by
    rw [BitVec.toNat_or, Nat.testBit_or]
    exact Bool.or_true _
  rw [Nat.testBit_eq_decide_div_mod_eq, decide_eq_true_eq, Nat.pow_one] at hbit
  rw [State.cfg_eq, hbit]
  rfl

/-- The first byte of a Fixed-mode prefix of a short payload: its length or 0, by the byte order (R100). -/
theorem byteAt_lpEncode_fixed {cfg : Cfg} (h : cfg.mode = .fixed) {len : Nat} (hlen : len ≤ 8) (rest : List Byte) :
    byteAt (lpEncode len cfg ++ rest) 0 = len ∨ byteAt (lpEncode len cfg ++ rest) 0 = 0 := by
  have hprefix : byteAt (lpEncode len cfg ++ rest) 0 = byteAt (lpEncode len cfg) 0 := by
    have hpos : 0 < (lpEncode len cfg).length := by rw [lpEncode_length_of_fixed h]; decide
    simp only [byteAt, List.getD_eq_getElem?_getD, List.getElem?_append_left hpos]
  rw [hprefix, lpEncode, h]
  cases cfg.byteOrder with
  | littleEndian =>
    left
    exact (byteAt_leBytes len (by decide)).trans (by omega)
  | bigEndian =>
    right
    exact (byteAt_beBytes len (by decide)).trans (by omega)

/-- A Fixed-mode record of at most eight payload bytes is no Variable-mode record of one to 250: equal lengths would
make the first bytes differ (R100, R104). -/
theorem fixed_record_ne_variable_record {a b : Cfg} (ha : a.mode = .fixed) (hb : b.mode = .variableLen)
    {p q : List Byte} (hp : p.length ≤ 8) (hq : q.length < 251) (hne : q ≠ []) :
    lpEncode p.length a ++ p ≠ lpEncode q.length b ++ q := by
  intro heq
  have hqpos := List.length_pos_of_ne_nil hne
  have hlen := congrArg List.length heq
  have hfirst := congrArg (byteAt · 0) heq
  have hmarker : byteAt (lpEncode q.length b ++ q) 0 = q.length := by
    rw [lpEncode_of_variable hb hq]
    exact Nat.mod_eq_of_lt (by omega)
  rw [List.length_append, List.length_append, lpEncode_length_of_fixed ha, lpEncode_of_variable hb hq,
    List.length_singleton] at hlen
  rw [hmarker] at hfirst
  obtain hown | hzero := byteAt_lpEncode_fixed ha hp p
  · omega
  · omega

/-- Settles O49: both runs frame an integer's payload, at most eight bytes in Fixed mode and one to ten in Variable
mode. -/
theorem recordsAreModeSensitive : Obligations.RecordsAreModeSensitive := by
  intro i hi s t t' hmode h hok h' hok'
  obtain ⟨b, y, signed, hb, hexec⟩ := exec_ser_eq_conclude hi
  obtain ⟨-, hout⟩ := State.conclude_intRecord ((hexec _).symm.trans h) hok
  obtain ⟨-, hout'⟩ := State.conclude_intRecord ((hexec _).symm.trans h') hok'
  have hvar := s.mode_setBit
  refine ⟨hvar, _, _, hout, hout', fixed_record_ne_variable_record hmode hvar ?_ ?_ ?_⟩
  · rw [intPayload_of_fixed hmode, emitFixed_length]
    exact s.intWidth_le_eight
  · exact (State.intPayload_length _ hb _ _).trans_lt (by decide)
  · exact State.intPayload_ne_nil _ _ _

end Sys2Proof.Machine
end
